-- ==== Sys2Proof/Word.lean ====
section
/-! DEFINITION. The word types of the interface: 32-bit registers and identifiers, 8-bit initial
APIC IDs and bytes (00_scope.md R9, R12; bit 0 is the least significant bit, R10). -/

namespace Sys2Proof

/-- A 32-bit unsigned word: a CPUID register, a leaf, a sub-leaf, an x2APIC ID, a mask (R9, R12). -/
abbrev Word := BitVec 32

/-- An 8-bit value: an initial APIC ID, a Domain Type, a byte of an instruction (R9). -/
abbrev Byte := BitVec 8

end Sys2Proof
end

