-- ==== Sys2Proof/Config.lean ====
section
/-! DEFINITION. What an implementation fixes (00_scope.md R9, 10_state.md R24 to R30): the types of a
platform's configuration, the free values of the interface, and the one platform the machine is
reset with. Every statement about a state holds for every configuration, because the configuration
is data of the state; the platform named here matters to `State.reset` alone (notes/assumptions/2). -/

namespace Sys2Proof

/-- The four 32-bit words one CPUID query returns (R9, R29, R58). -/
structure Words where
  eax : Word
  ebx : Word
  ecx : Word
  edx : Word
deriving DecidableEq, Repr

/-- What one leaf holds, sub-leaf by sub-leaf: the words of sub-leaves `0, 1, …` as listed, and one
entry for every sub-leaf after the list (R29: the table is total on 32-bit sub-leaves). -/
structure SubleafTable where
  listed : List Words
  tail : Words
deriving DecidableEq, Repr

/-- The configuration of one logical processor: its two IDs (R25, R26; two independent values, R27),
whether IA32_MISC_ENABLES[22] exists on it (R104) and its value at boot (R38), and its CPUID table,
one entry per populated leaf (R29, R51). Leaves 00H and 01H have one entry, the others one per
sub-leaf. -/
structure LpConfig where
  x2apicId : Word
  initialApicId : Byte
  hasLimitBit : Bool
  limitAtBoot : Bool
  leaf00 : Words
  leaf01 : Words
  leaf04 : SubleafTable
  leaf0B : SubleafTable
  leaf18 : SubleafTable
  leaf1F : SubleafTable
deriving DecidableEq, Repr

/-- The six Domain Type identification values (R79): parameters, of which the interface promises
only that they are distinct and in 1 to 6 (`DomainTypes.wf`). -/
structure DomainTypes where
  lp : Byte
  core : Byte
  module : Byte
  tile : Byte
  die : Byte
  dieGrp : Byte
deriving DecidableEq, Repr

/-- The configuration of a platform (R9): its logical processors (`LPS`, R24), the limited maximum
leaf, a number below 4 (`LIMITED_MAX_LEAF`, R104), and the Domain Type values (R79). -/
structure Platform where
  lps : List LpConfig
  limitedMaxLeaf : Fin 4
  domainTypes : DomainTypes
deriving DecidableEq, Repr

/-- FREE VALUE, by logical processor, leaf, sub-leaf and register (0 EAX, 1 EBX, 2 ECX, 3 EDX): the
words of the reset platform's CPUID table to which the interface gives no value (R82, 93 U4, U6, U7:
"any value", fixed per entry). -/
opaque Config.anyWord : Nat → Nat → Nat → Nat → Word

/-- The four registers of a logical processor, as an expression names them (00_scope.md R16). -/
inductive RegName where
  | eax | ebx | ecx | edx
deriving DecidableEq, Repr

/-- The places where an expression of a query program (30_encoding.md R87) has no stated value
(notes/assumptions/18). -/
inductive Unstated where
  /-- Register `r` of logical processor `lp`, which holds no value. -/
  | register (lp : Nat) (r : RegName)
  /-- A variable of the software that has not been kept yet. -/
  | variable (k : Nat)
  /-- A slice `v[lo+len-1:lo]` that has no bit, or reaches past bit 31 (R10). -/
  | bitRange (v : Word) (lo len : Nat)
  /-- The quotient of `a` by 0. -/
  | quotient (a : Word)
  /-- `P2` outside its precondition 1 to 2^31 (R14: "meaningless"). -/
  | rounding (x : Word)
  /-- `LOG2` of a word that is no power of two (R15). -/
  | logarithm (p : Word)
deriving DecidableEq, Repr

/-- FREE VALUE: the value of an expression where none is stated. -/
opaque Config.unstatedValue : Unstated → Word

/-- FREE VALUE: which logical processor the host picks for the `n`-th step that no `run_on` binds
(70_reset_and_hazards.md R278: "chosen afresh, without constraint"). -/
opaque Config.freeLp : Nat → Nat

/-- FREE VALUE: the reset platform's CPUID.0:EAX under limited reporting (R104, D22: open, below 4). -/
opaque Config.limitedMaxLeaf : Fin 4

/-- The customary Domain Type values 1 to 6 (R79, 93 K4). PRESUMED: general knowledge; used by the
reset platform only. -/
def Config.customaryDomainTypes : DomainTypes := ⟨1, 2, 3, 4, 5, 6⟩

/-- The all-zero entry: what an invalid sub-leaf of leaves 04H and 18H returns (R81). -/
def Words.zero : Words := ⟨0, 0, 0, 0⟩

/-- Leaf 1FH (and 0BH) of the reset platform on the logical processor with ID `i`: two valid
sub-leaves, SHIFT 1 and 4, and the invalid tail (95_test_vectors.md, platform P1). -/
def Config.resetExtended (i : Nat) : SubleafTable where
  listed := [⟨0x1, 0x2, 0x100, BitVec.ofNat 32 i⟩, ⟨0x4, 0x10, 0x201, BitVec.ofNat 32 i⟩]
  tail := ⟨0, 0, 0, BitVec.ofNat 32 i⟩

/-- Leaf 04H of the reset platform: four caches, the Null entry, whose other registers are free
(93 U7), then zeros (95_test_vectors.md, platform P1). -/
def Config.resetCaches (i : Nat) : SubleafTable where
  listed := [⟨0x1C004121, 0x01C0003F, 0x3F, 0⟩, ⟨0x1C004122, 0x01C0003F, 0x3F, 0⟩,
    ⟨0x1C004143, 0x00C0003F, 0x3FF, 0⟩, ⟨0x1C03C163, 0x03C0003F, 0x3FFF, 6⟩,
    ⟨0, Config.anyWord i 4 4 1, Config.anyWord i 4 4 2, Config.anyWord i 4 4 3⟩]
  tail := Words.zero

/-- Leaf 18H of the reset platform: MAX_SUBLEAF 3, structures at sub-leaves 1 and 3, a hole at 2; EAX
of a sub-leaf above 0 is reserved, a free value (95_test_vectors.md, platform P1; 93 U4). -/
def Config.resetTlbs (i : Nat) : SubleafTable where
  listed := [⟨3, 0, 0, 0⟩, ⟨Config.anyWord i 0x18 1 0, 0x00040003, 0x10, 0x4021⟩, Words.zero,
    ⟨Config.anyWord i 0x18 3 0, 0x0008000B, 0x80, 0x4043⟩]
  tail := Words.zero

/-- The logical processor with ID `i` of the reset platform (95_test_vectors.md, platform P1); the
registers of leaves 00H and 01H that P1 leaves open are free values (93 U6). -/
def Config.resetLp (i : Nat) : LpConfig where
  x2apicId := BitVec.ofNat 32 i
  initialApicId := BitVec.ofNat 8 i
  hasLimitBit := true
  limitAtBoot := false
  leaf00 := ⟨0x1F, Config.anyWord i 0 0 1, Config.anyWord i 0 0 2, Config.anyWord i 0 0 3⟩
  leaf01 := ⟨Config.anyWord i 1 0 0, BitVec.ofNat 8 i ++ 0x100800#24,
    Config.anyWord i 1 0 2, Config.anyWord i 1 0 3 ||| 0x10000000⟩
  leaf04 := Config.resetCaches i
  leaf0B := Config.resetExtended i
  leaf18 := Config.resetTlbs i
  leaf1F := Config.resetExtended i

/-- The platform `State.reset` starts with. DESIGN CHOICE (notes/assumptions/2): the interface leaves
the platform to the implementation (R9, R38); this one is the spec's own platform P1
(95_test_vectors.md), 2 packages of 8 cores of 2 logical processors, with the free values above for
every word P1 leaves open. -/
def Config.platform : Platform where
  lps := (List.range 32).map Config.resetLp
  limitedMaxLeaf := Config.limitedMaxLeaf
  domainTypes := Config.customaryDomainTypes

end Sys2Proof
end

