-- ==== Sys2Proof/Syntax.lean ====
section
/-! DEFINITION. The instructions, one constructor per row of spec/opcode_table.json, the codes that
stand for them, the expressions of a query program and the kinds of line it is made of (30_encoding.md R71, R80, R87). -/

namespace Sys2Proof

/-- The six leaves CPUID is described for, by the value of initial EAX (R71). -/
inductive Leaf where
  | l00 | l01 | l04 | l0B | l18 | l1F
deriving DecidableEq, Repr

/-- What an MSR instruction addresses (R52, R84): bit 22 of IA32_MISC_ENABLES, the one bit in scope,
or any other use, of which the source says nothing. The tag only tells other uses apart. -/
inductive MsrTarget where
  /-- IA32_MISC_ENABLES[22]. -/
  | limitBit
  /-- Another MSR, or another bit. -/
  | otherUse (tag : Byte)
deriving DecidableEq, Repr

/-- The instructions of spec/opcode_table.json.

`cpuid` is the instruction itself (R100): leaf and sub-leaf are in EAX and ECX. The six `cpuidNN` are
the table's query rows: the instruction together with the initial EAX the row fixes and, for a leaf
that has sub-leaves, the initial ECX (`subleaf`) as its operand (R71: "A query is the pair (initial
EAX, initial ECX)"). CLFLUSH and CLFLUSHOPT carry the two fields of their ModR/M byte that name a
memory operand (R84). -/
inductive Instr where
  | cpuid
  | cpuid00
  | cpuid01
  | cpuid04 (subleaf : Word)
  | cpuid0B (subleaf : Word)
  | cpuid18 (subleaf : Word)
  | cpuid1F (subleaf : Word)
  | wrmsr (target : MsrTarget) (value : Bool)
  | rdmsr (target : MsrTarget)
  | wbinvd
  | invd
  | clflush (mod : BitVec 2) (rm : BitVec 3)
  | clflushopt (mod : BitVec 2) (rm : BitVec 3)
deriving DecidableEq, Repr

/-- The code of one instruction: bytes that begin with it (93 K1, K3), or the pair of selector words
of a query row, initial EAX then initial ECX (R71, R80). -/
inductive Code where
  | bytes (b : List Byte)
  | query (eax ecx : Word)
deriving DecidableEq, Repr

/-- The binary operators of 00_scope.md R12, on 32-bit words. -/
inductive BinOp where
  | and | or | shl | shr | add | sub | mul | div
deriving DecidableEq, Repr

/-- A 32-bit expression of a query program (R87), in the operators and primitives of 00_scope.md R10, R12
and R14 to R16. Zero-extension leaves a 32-bit value as it is and needs no form. The numbering of the
software's variables is the model's (DESIGN CHOICE, notes/assumptions/18). -/
inductive Expr where
  /-- A constant. -/
  | const (v : Word)
  /-- `x[r]`, of the logical processor the line runs on. -/
  | reg (r : RegName)
  /-- The `k`-th value the software has kept (`Line.keep`), counted from 0. -/
  | var (k : Nat)
  /-- `b` of the last ReadLimitBit (40_cpuid_discovery.md R112), as 0 or 1. -/
  | limitBit
  /-- The slice of `len` bits from bit `lo` up: `e[lo+len-1:lo]`. -/
  | slice (e : Expr) (lo len : Nat)
  /-- `~e`. -/
  | not (e : Expr)
  | bin (op : BinOp) (a b : Expr)
  /-- `P2(e)`. -/
  | p2 (e : Expr)
  /-- `LOG2(e)`. -/
  | log2 (e : Expr)
deriving DecidableEq, Repr

/-- A line of a query program: set the leaf, set the sub-leaf, or one instruction (R87), and the
computation on the results that R87, 10 R23 and 60 R250 let a program hold besides: `keep` gives the
software's next variable the value of an expression. Tests and loops are the software's (95, part 3). -/
inductive Line where
  | setEax (e : Expr)
  | setEcx (e : Expr)
  | keep (e : Expr)
  | code (c : Code)
deriving DecidableEq, Repr

/-- Why a code is no instruction of the table. -/
inductive DecodeError where
  /-- The bytes end inside an instruction. -/
  | truncated
  /-- The first bytes are no opcode of the table. -/
  | unknownOpcode
  /-- An opcode of the table with operand bits that name none of its forms. -/
  | reservedForm
  /-- A selector pair whose initial EAX is none of the six leaves (R85). -/
  | unlistedSelector
deriving DecidableEq, Repr

end Sys2Proof
end

