-- ==== Sys2Proof/WellFormed.lean ====
section
/-! DEFINITION. Which instructions are well formed: the operands that an encoding can carry. -/

namespace Sys2Proof

/-- An "other use" of an MSR is another one: tag 0 is the limit bit's own code. -/
def MsrTarget.wellFormed : MsrTarget → Bool
  | .limitBit => true
  | .otherUse tag => tag != 0

/-- CLFLUSH and CLFLUSHOPT have a memory operand (R84), so their ModR/M mod field is not 3. -/
def Instr.wellFormed : Instr → Bool
  | .cpuid => true
  | .cpuid00 => true
  | .cpuid01 => true
  | .cpuid04 _ => true
  | .cpuid0B _ => true
  | .cpuid18 _ => true
  | .cpuid1F _ => true
  | .wrmsr t _ => t.wellFormed
  | .rdmsr t => t.wellFormed
  | .wbinvd => true
  | .invd => true
  | .clflush m _ => m != 3
  | .clflushopt m _ => m != 3

end Sys2Proof
end

