-- ==== Sys2Proof/Decode.lean ====
section
/-! DEFINITION. From codes to instructions and back.

The leaf rows are decoded from the selector pair, as 30_encoding.md R80 says ("match initial EAX
against `match` under `mask` 0xFFFFFFFF"). The bytes of the other rows are general knowledge
(93_implementation_defined.md K1, K2, K3; PRESUMED, notes/assumptions/4), and the operand bytes of the
two abstract MSR steps are the model's (DESIGN CHOICE, notes/assumptions/5). -/

namespace Sys2Proof

/-- The value of initial EAX that selects a leaf (R71). -/
def Leaf.selector : Leaf → Word
  | .l00 => 0x00
  | .l01 => 0x01
  | .l04 => 0x04
  | .l0B => 0x0B
  | .l18 => 0x18
  | .l1F => 0x1F

/-- The leaf initial EAX selects, all 32 bits taking part (R71); none for an unlisted value (R85). -/
def Leaf.ofWord (eax : Word) : Option Leaf :=
  if eax = 0x00 then some .l00
  else if eax = 0x01 then some .l01
  else if eax = 0x04 then some .l04
  else if eax = 0x0B then some .l0B
  else if eax = 0x18 then some .l18
  else if eax = 0x1F then some .l1F
  else none

/-- The query row a selector pair stands for; ECX is no operand of leaves 00H and 01H (R71). -/
def decodeQuery (eax ecx : Word) : Except DecodeError Instr :=
  match Leaf.ofWord eax with
  | some .l00 => .ok .cpuid00
  | some .l01 => .ok .cpuid01
  | some .l04 => .ok (.cpuid04 ecx)
  | some .l0B => .ok (.cpuid0B ecx)
  | some .l18 => .ok (.cpuid18 ecx)
  | some .l1F => .ok (.cpuid1F ecx)
  | none => .error .unlistedSelector

/-- The target byte of an abstract MSR step: 0 is IA32_MISC_ENABLES[22]. -/
def msrTargetOfByte (b : Byte) : MsrTarget :=
  if b = 0 then .limitBit else .otherUse b

/-- The byte of an MSR target. -/
def byteOfMsrTarget : MsrTarget → Byte
  | .limitBit => 0
  | .otherUse tag => tag

/-- The memory operand of opcode 0FH AEH with /7 in its ModR/M byte: mod and r/m, mod not 3 (K3). -/
def decodeFlushOperand (make : BitVec 2 → BitVec 3 → Instr) :
    List Byte → Except DecodeError (Instr × List Byte)
  | [] => .error .truncated
  | modrm :: rest =>
    if modrm.extractLsb' 3 3 = 7 ∧ modrm.extractLsb' 6 2 ≠ 3 then
      .ok (make (modrm.extractLsb' 6 2) (modrm.extractLsb' 0 3), rest)
    else .error .reservedForm

/-- The ModR/M byte with reg field 7. -/
def flushOperandByte (mod : BitVec 2) (rm : BitVec 3) : Byte := mod ++ (7 : BitVec 3) ++ rm

/-- The operand bytes of the abstract write: target, then the bit's new value (R112: 0 or 1). -/
def decodeWriteOperands : List Byte → Except DecodeError (Instr × List Byte)
  | target :: value :: rest =>
    if value = 0 then .ok (.wrmsr (msrTargetOfByte target) false, rest)
    else if value = 1 then .ok (.wrmsr (msrTargetOfByte target) true, rest)
    else .error .reservedForm
  | _ => .error .truncated

/-- The operand byte of the abstract read. -/
def decodeReadOperand : List Byte → Except DecodeError (Instr × List Byte)
  | target :: rest => .ok (.rdmsr (msrTargetOfByte target), rest)
  | [] => .error .truncated

/-- What follows a first byte 0FH (K1, K3). -/
def decodeTwoByte : List Byte → Except DecodeError (Instr × List Byte)
  | [] => .error .truncated
  | b :: rest =>
    if b = 0xA2 then .ok (.cpuid, rest)
    else if b = 0x30 then decodeWriteOperands rest
    else if b = 0x32 then decodeReadOperand rest
    else if b = 0x09 then .ok (.wbinvd, rest)
    else if b = 0x08 then .ok (.invd, rest)
    else if b = 0xAE then decodeFlushOperand .clflush rest
    else .error .unknownOpcode

/-- What follows the bytes 66H 0FH: only the AEH /7 of CLFLUSHOPT (K3). -/
def decodePrefixedTwoByte : List Byte → Except DecodeError (Instr × List Byte)
  | [] => .error .truncated
  | b :: rest => if b = 0xAE then decodeFlushOperand .clflushopt rest else .error .unknownOpcode

/-- What follows a first byte 66H: only CLFLUSHOPT, 66H 0FH AEH /7 (K3). Bytes are called truncated only
where they are a beginning of that; 66H and any second byte but 0FH are no opcode of the table, whatever
they are elsewhere (DESIGN CHOICE, notes/assumptions/11). -/
def decodePrefixed : List Byte → Except DecodeError (Instr × List Byte)
  | [] => .error .truncated
  | b :: rest => if b = 0x0F then decodePrefixedTwoByte rest else .error .unknownOpcode

/-- The instruction that begins a list of bytes, and the bytes after it. -/
def decodeBytes : List Byte → Except DecodeError (Instr × List Byte)
  | [] => .error .truncated
  | b :: rest =>
    if b = 0x0F then decodeTwoByte rest
    else if b = 0x66 then decodePrefixed rest
    else .error .unknownOpcode

/-- The instruction of a code; bytes after a byte-coded instruction are not part of it. -/
def decode : Code → Except DecodeError Instr
  | .query eax ecx => decodeQuery eax ecx
  | .bytes b => (decodeBytes b).map Prod.fst

/-- The code of an instruction. Leaves 00H and 01H take a zero second selector word. -/
def encode : Instr → Code
  | .cpuid => .bytes [0x0F, 0xA2]
  | .cpuid00 => .query Leaf.l00.selector 0
  | .cpuid01 => .query Leaf.l01.selector 0
  | .cpuid04 n => .query Leaf.l04.selector n
  | .cpuid0B n => .query Leaf.l0B.selector n
  | .cpuid18 n => .query Leaf.l18.selector n
  | .cpuid1F n => .query Leaf.l1F.selector n
  | .wrmsr t v => .bytes [0x0F, 0x30, byteOfMsrTarget t, if v then 1 else 0]
  | .rdmsr t => .bytes [0x0F, 0x32, byteOfMsrTarget t]
  | .wbinvd => .bytes [0x0F, 0x09]
  | .invd => .bytes [0x0F, 0x08]
  | .clflush m rm => .bytes [0x0F, 0xAE, flushOperandByte m rm]
  | .clflushopt m rm => .bytes [0x66, 0x0F, 0xAE, flushOperandByte m rm]

/-- The `n` low bytes of `w`, most significant first: the table writes an opcode with its first byte
in the most significant place (row CPUID: "0FH A2H (first byte first)", match 0FA2H). -/
def bytesOf : Nat → Nat → List Byte
  | 0, _ => []
  | n + 1, w => BitVec.ofNat 8 (w >>> (8 * n)) :: bytesOf n w

/-- The code of a table word of `nbits` bits. A 32-bit word that is one of the six leaf numbers is the
first selector word of a query, and the second selector word is what stands above it; any other word
is opcode bytes, followed by zeros for the operand bytes the table gives no bits. -/
def tableCode (nbits w : Nat) : Code :=
  if (nbits = 32 ∨ nbits = 64) ∧ (Leaf.ofWord (BitVec.ofNat 32 w)).isSome ∧ w < 2 ^ nbits then
    .query (BitVec.ofNat 32 w) (BitVec.ofNat 32 (w >>> 32))
  else .bytes (bytesOf (nbits / 8) w ++ [0, 0, 0, 0])

/-- The instruction the decoder reads from a table word. -/
def decodeTableWord (nbits w : Nat) : Option Instr :=
  match decode (tableCode nbits w) with
  | .ok i => some i
  | .error _ => none

/-- A little-endian 32-bit immediate (93 K2, K12). -/
def immediate (b0 b1 b2 b3 : Byte) : Word := b3 ++ b2 ++ b1 ++ b0

/-- The program line that begins a byte image, and the bytes after it: `MOV EAX, imm32` is B8H and
`MOV ECX, imm32` is B9H, each followed by its immediate (93 K2); any other byte begins an
instruction. -/
def decodeLine : List Byte → Except DecodeError (Line × List Byte)
  | [] => .error .truncated
  | b :: rest =>
    if b = 0xB8 ∨ b = 0xB9 then
      match rest with
      | b0 :: b1 :: b2 :: b3 :: rest' =>
        let v := immediate b0 b1 b2 b3
        .ok (if b = 0xB8 then .setEax (.const v) else .setEcx (.const v), rest')
      | _ => .error .truncated
    else (decodeBytes (b :: rest)).map fun (i, rest') => (.code (encode i), rest')

/-- The lines of a whole byte image (95_test_vectors.md, part 3 prints one), at most `fuel` of them. -/
def decodeImage : Nat → List Byte → Except DecodeError (List Line)
  | _, [] => .ok []
  | 0, _ => .error .truncated
  | fuel + 1, b =>
    match decodeLine b with
    | .error e => .error e
    | .ok (l, rest) => (decodeImage fuel rest).map (l :: ·)

end Sys2Proof
end

