-- ==== Sys2Proof/Machine/State.lean ====
section
/-! DEFINITION. The state of the machine, the reasons a step can stop, and reset
(10_state.md, 60_exceptions.md R240, R241, 70_reset_and_hazards.md R272). -/

namespace Sys2Proof.Machine

/-- The three layers of software (60 R247): labels on the agent that issues a step. -/
inductive Layer where
  | bios | os | application
deriving DecidableEq, Repr

/-- A register: its 32 bits, and whether software has put a value there. A register "holds no value"
from the start of a run until something writes it (10 R22); what its bits are then is nothing any
step can read. -/
structure Reg where
  bits : Word
  holds : Bool
deriving DecidableEq, Repr

/-- One logical processor: its configuration, which no step changes, its four registers (10 R20) and
IA32_MISC_ENABLES (10 R31). The MSR's width is PRESUMED (93 K10). -/
structure Lp where
  cfg : LpConfig
  eax : Reg
  ebx : Reg
  ecx : Reg
  edx : Reg
  miscEnables : BitVec 64
deriving DecidableEq, Repr

/-- One step the host has issued: the logical processor `run_on` binds it to, if any (60 R250, 70
R278), the layer of the agent that issues it (60 R247), and the line. -/
structure Pending where
  on : Option Nat
  layer : Layer
  line : Line
deriving DecidableEq, Repr

/-- Why a step stops with a fault. There is no reason: "The model has no exception" (60 R240). -/
inductive Fault where
deriving DecidableEq, Repr

/-- Why a step has no successor state (60 R241, R245). Each is safe: the model stops where the spec
gives no meaning. -/
inductive Refusal where
  /-- `exec`, for an instruction that has no meaning yet. Safe. -/
  | notModelled (mnemonic : String)
  /-- CPUID reads EAX, or ECX for a leaf with sub-leaves, and it holds no value: the refusal
  10 R22, the table of 60 R241, 92 D17 and 93 U22 state. Safe. -/
  | registerHoldsNoValue
  /-- CPUID or a query code with initial EAX none of the six leaves (40 R100). Safe. -/
  | unlistedLeaf
  /-- A CPUID query of one of the six leaves above the effective maximum leaf (40 R100). Safe. -/
  | leafAboveMaximum
  /-- The choice of method where the maximum leaf is 0 (40 R111). Safe. -/
  | noCpuidApicId
  /-- The legacy algorithm where there are more core IDs than logical-processor IDs (44 R221). Safe. -/
  | malformedLegacyCounts
  /-- WBINVD, INVD, CLFLUSH, CLFLUSHOPT, an MSR use other than the limit bit, and bytes that are no
  instruction of the table (30 R84, 60 R241). Safe. -/
  | unmodelledInstruction
  /-- The limit bit accessed by an agent of the application layer (60 R248). Safe. -/
  | msrAccessWithoutPrivilege
  /-- `step`, when the software has no further step: the run has ended (70 R273). Safe. -/
  | endOfRun
  /-- A step bound to a number that is no logical processor of the platform (60 R250). Safe. -/
  | notInLps
  /-- `step`, for a code whose bytes end inside an instruction; the model's own reason (DESIGN CHOICE,
  notes/assumptions/11). Safe. -/
  | truncatedCode
deriving DecidableEq, Repr

/-- The whole machine.

`lps`, `limitedMaxLeaf` and `domainTypes` are the platform (00 R9): configuration, registers and MSR of
every logical processor, and the two platform-wide parameters. The other six fields are the model's:
the logical processor and the layer of the step at hand, the steps still to come, the count of steps
whose logical processor the host chose (the argument of `Config.freeLp`), the software's variable `b`
that `ReadLimitBit` assigns (40 R112), and its other variables, in the order it kept them (30 R87). -/
structure State where
  lps : List Lp
  limitedMaxLeaf : Fin 4
  domainTypes : DomainTypes
  cur : Nat
  layer : Layer
  queue : List Pending
  freeCount : Nat
  readBit : Bool
  vars : List Word
deriving DecidableEq, Repr

/-- A register that holds no value. DESIGN CHOICE (notes/assumptions/1): its bits are 0. -/
def Reg.empty : Reg := ⟨0, false⟩

/-- A register that holds `v`. -/
def Reg.of (v : Word) : Reg := ⟨v, true⟩

/-- A logical processor at the start of a run (70 R272): no register holds a value, and bit 22 of
IA32_MISC_ENABLES is `limit_cpuid_at_boot`, or 0 where the bit does not exist (40 R104). DESIGN CHOICE
(notes/assumptions/3): the other 63 bits are 0. -/
def Lp.boot (c : LpConfig) : Lp where
  cfg := c
  eax := Reg.empty
  ebx := Reg.empty
  ecx := Reg.empty
  edx := Reg.empty
  miscEnables := if c.hasLimitBit && c.limitAtBoot then 0x400000 else 0

/-- The start of a run on a platform (70 R272, 10 R38). DESIGN CHOICE (notes/assumptions/8, 9, 10, 18): the
model's own fields start at 0, the OS layer, no step and no variable. -/
def State.boot (p : Platform) : State where
  lps := p.lps.map Lp.boot
  limitedMaxLeaf := p.limitedMaxLeaf
  domainTypes := p.domainTypes
  cur := 0
  layer := .os
  queue := []
  freeCount := 0
  readBit := false
  vars := []

/-- The machine right after reset, on the platform of `Config.platform` (notes/assumptions/2). -/
def State.reset : State := State.boot Config.platform

end Sys2Proof.Machine
end

