-- ==== Sys2Proof/Machine/Operands.lean ====
section
/-! DEFINITION. The fields of the results: which bits of which register carry what (30_encoding.md R72
to R78), the values the enumerated fields take (R74, R76, R79, R83), and the rounding primitives
(00_scope.md R14, R15). No field is signed (R78). -/

namespace Sys2Proof

/-! ### Leaf 00H (R72) -/

/-- MAX_BASIC_LEAF, EAX[31:0]. -/
def Words.maxBasicLeaf (w : Words) : Word := w.eax

/-! ### Leaf 01H (R73) -/

/-- VERSION, EAX[31:0]; no bit positions are given. -/
def Words.version (w : Words) : Word := w.eax
/-- BRAND_INDEX, EBX[7:0]. -/
def Words.brandIndex (w : Words) : Byte := w.ebx.extractLsb' 0 8
/-- CLFLUSH_LINE, EBX[15:8]. -/
def Words.clflushLine (w : Words) : Byte := w.ebx.extractLsb' 8 8
/-- The cache line size in bytes: CLFLUSH_LINE times eight (R73, R78). -/
def Words.clflushLineBytes (w : Words) : Nat := w.clflushLine.toNat * 8
/-- MAX_LP_IDS, EBX[23:16]: the count itself, no "add one" (90 C12). -/
def Words.maxLpIds (w : Words) : Byte := w.ebx.extractLsb' 16 8
/-- INITIAL_APIC_ID, EBX[31:24]. -/
def Words.initialApicId (w : Words) : Byte := w.ebx.extractLsb' 24 8
/-- FEATURES_ECX, ECX[31:0]; no bit is described. -/
def Words.featuresEcx (w : Words) : Word := w.ecx
/-- FEATURES_EDX, EDX[31:0]; bit 28 is HTT (Flags.lean). -/
def Words.featuresEdx (w : Words) : Word := w.edx

/-! ### Leaf 04H (R74) -/

/-- CACHE_TYPE, EAX[4:0]. -/
def Words.cacheType (w : Words) : BitVec 5 := w.eax.extractLsb' 0 5
/-- CACHE_LEVEL, EAX[7:5]. -/
def Words.cacheLevel (w : Words) : BitVec 3 := w.eax.extractLsb' 5 3
/-- MAX_LP_SHARING, EAX[25:14]. -/
def Words.maxLpSharing (w : Words) : BitVec 12 := w.eax.extractLsb' 14 12
/-- MAX_CORE_IDS, EAX[31:26]. -/
def Words.maxCoreIds (w : Words) : BitVec 6 := w.eax.extractLsb' 26 6
/-- System coherency line size, EBX[11:0] plus one (R78). -/
def Words.lineSize (w : Words) : Nat := (w.ebx.extractLsb' 0 12).toNat + 1
/-- Physical line partitions, EBX[21:12] plus one. -/
def Words.linePartitions (w : Words) : Nat := (w.ebx.extractLsb' 12 10).toNat + 1
/-- Ways of associativity, EBX[31:22] plus one. -/
def Words.ways (w : Words) : Nat := (w.ebx.extractLsb' 22 10).toNat + 1
/-- Number of sets, ECX[31:0] plus one. DESIGN CHOICE (notes/assumptions/19): the true value of R78 is a
number, so where the field is 0xFFFFFFFF it is 2^32 and not the 0 of a 32-bit sum (00 R12). -/
def Words.sets (w : Words) : Nat := w.ecx.toNat + 1
/-- EDX[31:3] of leaf 04H: "Reserved = 0" (93 U3). -/
def Words.cacheReservedEdx (w : Words) : BitVec 29 := w.edx.extractLsb' 3 29
/-- LogicalProcessorsSharingCache: MAX_LP_SHARING plus one, 1 to 4096 (42 R177). -/
def Words.lpsSharingCache (w : Words) : Word := w.maxLpSharing.setWidth 32 + 1
/-- The addressable IDs for processor cores in the package: MAX_CORE_IDS plus one, 1 to 64 (42 R171). -/
def Words.coreIdsInPackage (w : Words) : Word := w.maxCoreIds.setWidth 32 + 1

/-- What CACHE_TYPE says (R74, R83). -/
inductive CacheKind where
  | null | data | instruction | unified | reserved
deriving DecidableEq, Repr

/-- The values of CACHE_TYPE: 4 to 31 are reserved (R74). -/
def CacheKind.ofField (t : BitVec 5) : CacheKind :=
  if t = 0 then .null else if t = 1 then .data else if t = 2 then .instruction
  else if t = 3 then .unified else .reserved

/-! ### Leaf 18H (R76) -/

/-- MAX_SUBLEAF, EAX[31:0] of sub-leaf 0. -/
def Words.maxSubleaf (w : Words) : Word := w.eax
/-- PARTITIONING, EBX[10:8]; 0 is soft partitioning, 1 to 7 are not described. -/
def Words.partitioning (w : Words) : BitVec 3 := w.ebx.extractLsb' 8 3
/-- TC_W, EBX[31:16]: ways, as it stands (no "add one", R76). -/
def Words.tcWays (w : Words) : BitVec 16 := w.ebx.extractLsb' 16 16
/-- TC_S, ECX[31:0]: sets, as it stands. -/
def Words.tcSets (w : Words) : Word := w.ecx
/-- TC_TYPE, EDX[4:0]. -/
def Words.tcType (w : Words) : BitVec 5 := w.edx.extractLsb' 0 5
/-- TC_LEVEL, EDX[7:5]. -/
def Words.tcLevel (w : Words) : BitVec 3 := w.edx.extractLsb' 5 3
/-- TC_MAX_LP_SHARING, EDX[25:14]. -/
def Words.tcMaxLpSharing (w : Words) : BitVec 12 := w.edx.extractLsb' 14 12
/-- LogicalProcessorsSharingTlb: TC_MAX_LP_SHARING plus one, 1 to 4096 (43 R198). -/
def Words.lpsSharingTlb (w : Words) : Word := w.tcMaxLpSharing.setWidth 32 + 1

/-- What TC_TYPE says (R76, 43 R191; one list for all sub-leaves, 90 C4). -/
inductive TlbKind where
  | null | data | instruction | unified | loadOnly | storeOnly | reserved
deriving DecidableEq, Repr

/-- The values of TC_TYPE: 6 to 31 are reserved (R83). -/
def TlbKind.ofField (t : BitVec 5) : TlbKind :=
  if t = 0 then .null else if t = 1 then .data else if t = 2 then .instruction
  else if t = 3 then .unified else if t = 4 then .loadOnly else if t = 5 then .storeOnly
  else .reserved

/-! ### Leaves 1FH and 0BH (R75, R77) -/

/-- SHIFT, EAX[4:0]: counted from bit 0 of the x2APIC ID (41 R131). -/
def Words.shift (w : Words) : BitVec 5 := w.eax.extractLsb' 0 5
/-- NUM_LP, EBX[15:0]. -/
def Words.numLp (w : Words) : BitVec 16 := w.ebx.extractLsb' 0 16
/-- SUBLEAF_ECHO, ECX[7:0]. -/
def Words.subleafEcho (w : Words) : Byte := w.ecx.extractLsb' 0 8
/-- DOMAIN_TYPE, ECX[15:8]. -/
def Words.domainType (w : Words) : Byte := w.ecx.extractLsb' 8 8
/-- X2APIC_ID, EDX[31:0]. -/
def Words.x2apicId (w : Words) : Word := w.edx

/-- The enumerable domains, lowest to highest; the package is above them all and never enumerated
(41 R134, R136). -/
inductive Domain where
  | lp | core | module | tile | die | dieGrp
deriving DecidableEq, Repr

/-- The place of a domain in the hierarchy (41 R136). -/
def Domain.rank : Domain → Nat
  | .lp => 0
  | .core => 1
  | .module => 2
  | .tile => 3
  | .die => 4
  | .dieGrp => 5

/-- The identification value of a domain (R79). -/
def DomainTypes.value (dt : DomainTypes) : Domain → Byte
  | .lp => dt.lp
  | .core => dt.core
  | .module => dt.module
  | .tile => dt.tile
  | .die => dt.die
  | .dieGrp => dt.dieGrp

/-- The domain a DOMAIN_TYPE value names, if it is one of the six defined ones (R79). -/
def DomainTypes.domain (dt : DomainTypes) (t : Byte) : Option Domain :=
  [Domain.lp, .core, .module, .tile, .die, .dieGrp].find? fun d => dt.value d == t

/-- What the source fixes of the six values: distinct, none 0, none above 6 (R79, 92 D7). -/
def DomainTypes.wf (dt : DomainTypes) : Bool :=
  let vs := [dt.lp, dt.core, dt.module, dt.tile, dt.die, dt.dieGrp]
  decide vs.Nodup && vs.all fun v => decide (1 ≤ v) && decide (v ≤ 6)

/-! ### The tables -/

/-- The entry of a sub-leaf (10 R29). -/
def SubleafTable.at (t : SubleafTable) (n : Word) : Words := (t.listed[n.toNat]?).getD t.tail

/-- Whether an extended leaf is implemented: EBX of sub-leaf 0 is not 0, all 32 bits (40 R110). -/
def SubleafTable.implemented (t : SubleafTable) : Bool := (t.at 0).ebx != 0

/-- The four words with ECX[7:0] replaced by the low byte of the sub-leaf (41 R133). -/
def Words.withEcho (w : Words) (n : Word) : Words :=
  { w with ecx := (w.ecx &&& 0xFFFFFF00) ||| (n &&& 0xFF) }

/-! ### Rounding (00 R14, R15) -/

/-- `P2(x)`: with `v = x * 2 - 1`, the highest set bit of `v` with all lower bits cleared. For
`1 ≤ x ≤ 2^31` it is the least power of two that is not smaller than `x`. -/
def p2 (x : Word) : Word := (1 : Word) <<< (x * 2 - 1).toNat.log2

/-- `LOG2(p)` of a power of two. -/
def log2Of (p : Word) : Nat := p.toNat.log2

end Sys2Proof
end

