-- ==== Sys2Proof/Machine/Flags.lean ====
section
/-! DEFINITION. The interface has no status flag: "The model has no flags" (10_state.md R35), and no
instruction computes one. What stands here are the one-bit fields of CPUID results, which are bits of
a result and not of a register of the machine (R33). -/

namespace Sys2Proof

/-- HTT, bit 28 of EDX of leaf 01H: MAX_LP_IDS is valid only where it is 1 (44 R213). -/
def Words.htt (w : Words) : Bool := w.edx.getLsbD 28

/-- SELF_INIT, EAX bit 8 of leaf 04H (30 R74). -/
def Words.selfInit (w : Words) : Bool := w.eax.getLsbD 8
/-- FULLY_ASSOC, EAX bit 9 of leaf 04H. -/
def Words.fullyAssoc (w : Words) : Bool := w.eax.getLsbD 9
/-- WBINVD_SCOPE, EDX bit 0 of leaf 04H; the behaviour it describes belongs to refused instructions
(93 U13). -/
def Words.wbinvdScope (w : Words) : Bool := w.edx.getLsbD 0
/-- INCLUSIVE, EDX bit 1 of leaf 04H. -/
def Words.inclusive (w : Words) : Bool := w.edx.getLsbD 1
/-- COMPLEX_INDEX, EDX bit 2 of leaf 04H. -/
def Words.complexIndex (w : Words) : Bool := w.edx.getLsbD 2

/-- PG_4K, EBX bit 0 of leaf 18H (30 R76). -/
def Words.pages4K (w : Words) : Bool := w.ebx.getLsbD 0
/-- PG_2M, EBX bit 1 of leaf 18H. -/
def Words.pages2M (w : Words) : Bool := w.ebx.getLsbD 1
/-- PG_4M, EBX bit 2 of leaf 18H. -/
def Words.pages4M (w : Words) : Bool := w.ebx.getLsbD 2
/-- PG_1G, EBX bit 3 of leaf 18H. -/
def Words.pages1G (w : Words) : Bool := w.ebx.getLsbD 3
/-- TC_FULLY_ASSOC, EDX bit 8 of leaf 18H. -/
def Words.tcFullyAssoc (w : Words) : Bool := w.edx.getLsbD 8

end Sys2Proof
end

