-- ==== Sys2Proof/Machine/Ops.lean ====
section
/-! DEFINITION. The shared operations: registers (10_state.md R20, R22), the limit bit (R31), what
CPUID returns leaf by leaf (40_cpuid_discovery.md R100 to R104 and the leaf rules), and one query on
the current logical processor. There is no exception to take and none to return from (60 R240, R246),
so no such operation stands here. -/

namespace Sys2Proof.Machine

/-- The result type of a meaning. -/
abbrev Result := Host.Outcome State Fault Refusal

/-! ### Registers -/

/-- Reading a register: its value, if it holds one (10 R22). -/
def Reg.read (r : Reg) : Option Word := if r.holds then some r.bits else none

/-- The four registers after a CPUID step: all four hold the results (10 R20, R22). -/
def Lp.withResults (lp : Lp) (w : Words) : Lp :=
  { lp with eax := Reg.of w.eax, ebx := Reg.of w.ebx, ecx := Reg.of w.ecx, edx := Reg.of w.edx }

/-- Replace one logical processor. -/
def State.setLp (s : State) (k : Nat) (lp : Lp) : State := { s with lps := s.lps.set k lp }

/-- A computation on the current logical processor; refused where there is none (60 R250). -/
def State.onCur (s : State) (f : Lp → Result) : Result :=
  match s.lps[s.cur]? with
  | some lp => f lp
  | none => .refused .notInLps

/-! ### IA32_MISC_ENABLES[22] -/

/-- The limit bit of a logical processor: constantly 0 where the processor has no such bit (40 R104). -/
def Lp.limitBit (lp : Lp) : Bool := lp.cfg.hasLimitBit && lp.miscEnables.getLsbD 22

/-- Writing the limit bit: bit 22 takes the value and "all other bits unchanged" (40 R112); where the
bit does not exist nothing changes, since it is "constantly 0" there (40 R104). -/
def Lp.setLimitBit (lp : Lp) (v : Bool) : Lp :=
  if lp.cfg.hasLimitBit then
    { lp with miscEnables :=
        (lp.miscEnables &&& ~~~(0x400000 : BitVec 64)) ||| (if v then 0x400000 else 0) }
  else lp

/-- Who may use the limit bit: agents of the BIOS and of the OS (60 R248). -/
def Layer.mayAccessMsr : Layer → Bool
  | .bios => true
  | .os => true
  | .application => false

/-! ### What CPUID returns -/

/-- `effective_max_basic_leaf(lp)` (40 R104), with the platform's LIMITED_MAX_LEAF. -/
def Lp.effectiveMaxLeaf (lp : Lp) (limited : Fin 4) : Word :=
  if lp.limitBit then BitVec.ofNat 32 limited.val else lp.cfg.leaf00.maxBasicLeaf

/-- Leaf 00H: EAX is the effective maximum leaf, the rest the table's (40 R103). -/
def Lp.leaf00Words (lp : Lp) (limited : Fin 4) : Words :=
  { lp.cfg.leaf00 with eax := lp.effectiveMaxLeaf limited }

/-- Leaf 01H: the table's entry (44 R210). -/
def Lp.leaf01Words (lp : Lp) : Words := lp.cfg.leaf01

/-- Leaf 04H: the table's entry for the sub-leaf (42 R170). -/
def Lp.leaf04Words (lp : Lp) (n : Word) : Words := lp.cfg.leaf04.at n

/-- Leaf 18H: the table's entry for the sub-leaf (43 R190). -/
def Lp.leaf18Words (lp : Lp) (n : Word) : Words := lp.cfg.leaf18.at n

/-- An extended leaf (41 R130, R138): the table's entry, with the echo of the sub-leaf in ECX[7:0] and
the x2APIC ID in EDX on every sub-leaf (R133, R135, R145); a leaf that is not implemented returns
EBX = 0 at every sub-leaf and the table's words in the other three (30 R85, 92 D35). -/
def extendedWords (t : SubleafTable) (x2apicId n : Word) : Words :=
  if t.implemented then { (t.at n).withEcho n with edx := x2apicId }
  else { t.at n with ebx := 0 }

/-- Leaf 0BH (41 R138). -/
def Lp.leaf0BWords (lp : Lp) (n : Word) : Words := extendedWords lp.cfg.leaf0B lp.cfg.x2apicId n

/-- Leaf 1FH (41 R130). -/
def Lp.leaf1FWords (lp : Lp) (n : Word) : Words := extendedWords lp.cfg.leaf1F lp.cfg.x2apicId n

/-- The words of a leaf under full reporting of that leaf (40 R100); leaves 00H and 01H have no
sub-leaf (92 D4). -/
def Lp.leafWords (lp : Lp) (limited : Fin 4) : Leaf → Word → Words
  | .l00, _ => lp.leaf00Words limited
  | .l01, _ => lp.leaf01Words
  | .l04, n => lp.leaf04Words n
  | .l0B, n => lp.leaf0BWords n
  | .l18, n => lp.leaf18Words n
  | .l1F, n => lp.leaf1FWords n

/-- Whether the leaf reads ECX (40 R100, second line). -/
def usesSubleaf : Leaf → Bool
  | .l00 => false
  | .l01 => false
  | .l04 => true
  | .l0B => true
  | .l18 => true
  | .l1F => true

/-- `CPUID(lp, L, n)`: the four words, or the refusal of a leaf above the effective maximum
(40 R100). -/
def Lp.cpuid (lp : Lp) (limited : Fin 4) (L : Leaf) (n : Word) : Except Refusal Words :=
  if lp.effectiveMaxLeaf limited < L.selector then .error .leafAboveMaximum
  else .ok (lp.leafWords limited L n)

/-- `CPUID(lp, L, n)` on logical processor number `k` of a platform (00 R13). -/
def State.cpuid (s : State) (k : Nat) (L : Leaf) (n : Word) : Except Refusal Words :=
  match s.lps[k]? with
  | some lp => lp.cpuid s.limitedMaxLeaf L n
  | none => .error .notInLps

/-- One query of leaf `L`, sub-leaf `n`, on the current logical processor: its four results overwrite
the four registers (40 R100, last line). -/
def query (L : Leaf) (n : Word) (s : State) : Result :=
  s.onCur fun lp =>
    match lp.cpuid s.limitedMaxLeaf L n with
    | .ok w => .next (s.setLp s.cur (lp.withResults w))
    | .error r => .refused r

/-! ### Codes that are no instruction -/

/-- The refusal a decoding error stands for (60 R241): an unlisted selector is an unlisted leaf, bytes
that are no row of the table are an instruction outside the model. -/
def refusalOfDecodeError : DecodeError → Refusal
  | .truncated => .truncatedCode
  | .unknownOpcode => .unmodelledInstruction
  | .reservedForm => .unmodelledInstruction
  | .unlistedSelector => .unlistedLeaf

end Sys2Proof.Machine
end

