-- ==== Sys2Proof/Machine/CacheMaintenance.lean ====
section
/-! DEFINITION. The four instructions the source names without defining (30_encoding.md R84, 20 R65):
"the other four are refused (60_exceptions.md rule R245)". No effect is given for any of them. -/

namespace Sys2Proof.Machine

/-- WBINVD: refused (R84). -/
def execWbinvd (_s : State) : Result := .refused .unmodelledInstruction

/-- INVD: refused (R84). -/
def execInvd (_s : State) : Result := .refused .unmodelledInstruction

/-- CLFLUSH: refused (R84). -/
def execClflush (_mod : BitVec 2) (_rm : BitVec 3) (_s : State) : Result :=
  .refused .unmodelledInstruction

/-- CLFLUSHOPT: refused (R84). -/
def execClflushopt (_mod : BitVec 2) (_rm : BitVec 3) (_s : State) : Result :=
  .refused .unmodelledInstruction

end Sys2Proof.Machine
end

