-- ==== Sys2Proof/Machine/Cpuid.lean ====
section
/-! DEFINITION. The meanings of CPUID (40_cpuid_discovery.md R100) and of the six query rows (R103,
44 R210, 42 R170, 41 R138, 43 R190, 41 R130). A query row brings its own initial EAX and ECX, which its
results overwrite, so it reads no register. Every layer may execute CPUID (60 R247): no meaning here
looks at the layer. -/

namespace Sys2Proof.Machine

/-- CPUID (R100), its checks in the order written there (60 R243): a register without a value (10 R22: "a
CPUID step that would read a register holding no value is refused"; 60 R241, 92 D17, 93 U22), an
unlisted leaf, a leaf above the effective maximum (in `query`). -/
def execCpuid (s : State) : Result :=
  s.onCur fun lp =>
    match lp.eax.read with
    | none => .refused .registerHoldsNoValue
    | some eax =>
      match Leaf.ofWord eax with
      | none => .refused .unlistedLeaf
      | some L =>
        if usesSubleaf L then
          match lp.ecx.read with
          | none => .refused .registerHoldsNoValue
          | some n => query L n s
        else query L 0 s

/-- CPUID.00H (R103). -/
def execCpuid00 (s : State) : Result := query .l00 0 s

/-- CPUID.01H (44 R210). -/
def execCpuid01 (s : State) : Result := query .l01 0 s

/-- CPUID.04H (42 R170). -/
def execCpuid04 (n : Word) (s : State) : Result := query .l04 n s

/-- CPUID.0BH (41 R138). -/
def execCpuid0B (n : Word) (s : State) : Result := query .l0B n s

/-- CPUID.18H (43 R190). -/
def execCpuid18 (n : Word) (s : State) : Result := query .l18 n s

/-- CPUID.1FH (41 R130). -/
def execCpuid1F (n : Word) (s : State) : Result := query .l1F n s

end Sys2Proof.Machine
end

