-- ==== Sys2Proof/Machine/Msr.lean ====
section
/-! DEFINITION. The abstract MSR steps: WRMSR as `WriteLimitBit(v)`, RDMSR as `ReadLimitBit`
(40_cpuid_discovery.md R112). Any other use of either is refused (30 R84), and an agent of the
application layer is refused (60 R248). -/

namespace Sys2Proof.Machine

/-- An access to an MSR target: the limit bit, by an agent that may (60 R248). -/
def msrAccess (target : MsrTarget) (s : State) (f : Lp → Result) : Result :=
  match target with
  | .otherUse _ => .refused .unmodelledInstruction
  | .limitBit => if s.layer.mayAccessMsr then s.onCur f else .refused .msrAccessWithoutPrivilege

/-- WRMSR: `MSR[IA32_MISC_ENABLES][22] <- v` on the current logical processor (R112; per logical
processor, 92 D32). -/
def execWrmsr (target : MsrTarget) (v : Bool) (s : State) : Result :=
  msrAccess target s fun lp => .next (s.setLp s.cur (lp.setLimitBit v))

/-- RDMSR: `b <- MSR[IA32_MISC_ENABLES][22]` of the current logical processor, `b` being the
software's variable; no register and no MSR changes (R112). -/
def execRdmsr (target : MsrTarget) (s : State) : Result :=
  msrAccess target s fun lp => .next { s with readBit := lp.limitBit }

end Sys2Proof.Machine
end

