-- ==== Sys2Proof/Machine/Dispatch.lean ====
section
/-! DEFINITION. One arm per instruction of spec/opcode_table.json. -/

namespace Sys2Proof.Machine

def exec (i : Instr) (s : State) : Host.Outcome State Fault Refusal :=
  match i with
  | .cpuid => Sys2Proof.Machine.execCpuid s
  | .cpuid00 => Sys2Proof.Machine.execCpuid00 s
  | .cpuid01 => Sys2Proof.Machine.execCpuid01 s
  | .cpuid04 subleaf => Sys2Proof.Machine.execCpuid04 subleaf s
  | .cpuid0B subleaf => Sys2Proof.Machine.execCpuid0B subleaf s
  | .cpuid18 subleaf => Sys2Proof.Machine.execCpuid18 subleaf s
  | .cpuid1F subleaf => Sys2Proof.Machine.execCpuid1F subleaf s
  | .wrmsr target value => Sys2Proof.Machine.execWrmsr target value s
  | .rdmsr target => Sys2Proof.Machine.execRdmsr target s
  | .wbinvd => Sys2Proof.Machine.execWbinvd s
  | .invd => Sys2Proof.Machine.execInvd s
  | .clflush mod rm => Sys2Proof.Machine.execClflush mod rm s
  | .clflushopt mod rm => Sys2Proof.Machine.execClflushopt mod rm s

end Sys2Proof.Machine
end

