-- ==== Sys2Proof/Machine/Expressions.lean ====
section
/-! DEFINITION. The values of expressions, and the lines of a query program that are no instruction
(30_encoding.md R87). Every expression has a value: where the spec states none, it is the free value
`Config.unstatedValue` (notes/assumptions/18). -/

namespace Sys2Proof.Machine

/-- The register an expression names (00 R16). -/
def Lp.reg (lp : Lp) : RegName → Reg
  | .eax => lp.eax
  | .ebx => lp.ebx
  | .ecx => lp.ecx
  | .edx => lp.edx

/-- The value of a register in an expression: what it holds, or a free value where it holds none. The
refusal of 10 R22 is CPUID's alone. -/
def State.regValue (s : State) (lp : Lp) (r : RegName) : Word :=
  ((lp.reg r).read).getD (Config.unstatedValue (.register s.cur r))

/-- The value of one of the software's variables, or a free value where it has not been kept yet. -/
def State.varValue (s : State) (k : Nat) : Word := (s.vars[k]?).getD (Config.unstatedValue (.variable k))

/-- A slice `v[lo+len-1:lo]` (00 R10), zero-extended to a word. R10 defines it on bits that `v` has: an empty
slice, and one that reaches past bit 31, is a free value (DESIGN CHOICE, notes/assumptions/18). -/
def sliceOf (v : Word) (lo len : Nat) : Word :=
  if 0 < len ∧ lo + len ≤ 32 then (v.extractLsb' lo len).setWidth 32
  else Config.unstatedValue (.bitRange v lo len)

/-- The operators of 00 R12. A quotient by 0 is a free value. Shift counts are "always in 0..31" there; of a
larger count the words "discarding bits above bit 31" and "filling with zeros" leave 0 (DEDUCED,
notes/assumptions/18). -/
def binValue : BinOp → Word → Word → Word
  | .and, a, b => a &&& b
  | .or, a, b => a ||| b
  | .shl, a, b => a <<< b.toNat
  | .shr, a, b => a >>> b.toNat
  | .add, a, b => a + b
  | .sub, a, b => a - b
  | .mul, a, b => a * b
  | .div, a, b => if b = 0 then Config.unstatedValue (.quotient a) else a / b

/-- `P2` where its precondition holds (00 R14); of any other word a free value. -/
def p2Value (x : Word) : Word :=
  if 1 ≤ x ∧ x ≤ 0x80000000 then p2 x else Config.unstatedValue (.rounding x)

/-- `LOG2` of a power of two (00 R15); of any other word a free value. -/
def log2Value (p : Word) : Word :=
  if p = (1 : Word) <<< log2Of p then BitVec.ofNat 32 (log2Of p) else Config.unstatedValue (.logarithm p)

/-- The value of an expression on logical processor `lp`, the current one (30 R87). -/
def State.value (s : State) (lp : Lp) : Expr → Word
  | .const v => v
  | .reg r => s.regValue lp r
  | .var k => s.varValue k
  | .limitBit => if s.readBit then 1 else 0
  | .slice e lo len => sliceOf (s.value lp e) lo len
  | .not e => ~~~s.value lp e
  | .bin op a b => binValue op (s.value lp a) (s.value lp b)
  | .p2 e => p2Value (s.value lp e)
  | .log2 e => log2Value (s.value lp e)

/-- `EAX <- e` on the current logical processor (30 R87). -/
def setEax (e : Expr) (s : State) : Result :=
  s.onCur fun lp => .next (s.setLp s.cur { lp with eax := Reg.of (s.value lp e) })

/-- `ECX <- e` on the current logical processor (30 R87). -/
def setEcx (e : Expr) (s : State) : Result :=
  s.onCur fun lp => .next (s.setLp s.cur { lp with ecx := Reg.of (s.value lp e) })

/-- Pure computation on the current logical processor (30 R87, 60 R250): the software's next variable
holds the value, and the machine is as before. -/
def keep (e : Expr) (s : State) : Result :=
  s.onCur fun lp => .next { s with vars := s.vars ++ [s.value lp e] }

end Sys2Proof.Machine
end

