-- ==== Sys2Proof/Machine/Host.lean ====
section
/-! DEFINITION. The host (60_exceptions.md R250, 70_reset_and_hazards.md R278): how steps are issued,
and on which logical processor the next one runs. -/

namespace Sys2Proof.Machine

/-- The lines of one sequence as pending steps, all bound alike and of one agent. -/
def pendingLines (on : Option Nat) (layer : Layer) (lines : List Line) : List Pending :=
  lines.map fun l => ⟨on, layer, l⟩

/-- `run_on(lp, steps)` (60 R250): the steps, all on logical processor `k`, after those already
issued; no migration happens inside them. -/
def State.runOn (s : State) (k : Nat) (layer : Layer) (lines : List Line) : State :=
  { s with queue := s.queue ++ pendingLines (some k) layer lines }

/-- Software outside `run_on` (70 R278): steps bound to no logical processor. -/
def State.runUnbound (s : State) (layer : Layer) (lines : List Line) : State :=
  { s with queue := s.queue ++ pendingLines none layer lines }

/-- The logical processor of a step: the one it is bound to, or one of `LPS` chosen afresh, without
constraint, by the free value at the count of unbound steps (70 R278). -/
def State.lpOf (s : State) (on : Option Nat) : Nat :=
  match on with
  | some k => k
  | none => Config.freeLp s.freeCount % s.lps.length

/-- The state in which the step at the head of the pending list is executed: it is taken off the
list, and its logical processor and its agent's layer are the current ones. -/
def State.issue (s : State) (p : Pending) (rest : List Pending) : State :=
  { s with
    cur := s.lpOf p.on
    layer := p.layer
    queue := rest
    freeCount := if p.on.isNone then s.freeCount + 1 else s.freeCount }

/-- The pending step that holds a table word's code, on the current logical processor and by the
current agent. -/
def State.tableStep (s : State) (nbits w : Nat) : Pending :=
  ⟨some s.cur, s.layer, .code (tableCode nbits w)⟩

end Sys2Proof.Machine
end

