-- ==== Sys2Proof/Machine/Step.lean ====
section
/-! DEFINITION. One step: the next pending line, executed on its logical processor (00_scope.md R7,
10_state.md R23, 30 R87). Nothing is fetched from memory; how a program comes to run is in
notes/assumptions/11. -/

namespace Sys2Proof.Machine

/-- A line of a program on the current logical processor (30 R87): a register set, a value kept, or an
instruction decoded from its code. -/
def runLine (l : Line) (s : State) : Host.Outcome State Fault Refusal :=
  match l with
  | .setEax e => setEax e s
  | .setEcx e => setEcx e s
  | .keep e => keep e s
  | .code c =>
    match decode c with
    | .ok i => exec i s
    | .error e => .refused (refusalOfDecodeError e)

/-- One step. With no pending step the run has ended (70 R273) and there is no successor state. -/
def step (s : State) : Host.Outcome State Fault Refusal :=
  match s.queue with
  | [] => .refused .endOfRun
  | p :: rest => runLine p.line (s.issue p rest)

/-- `s` with a table word's instruction as its next pending step, bound to the current logical
processor and issued by the current agent; everything else as it is. -/
def State.withFetchWord (s : State) (nbits w : Nat) : State :=
  { s with queue := s.tableStep nbits w :: s.queue }

end Sys2Proof.Machine
end

