-- ==== Sys2Proof/Machine/Discovery.lean ====
section
/-! DEFINITION. Software, first part: which extended leaf exists, which method to use, which ID to
decompose (40_cpuid_discovery.md R110, R111, 42_leaf_04_cache_topology.md R182). Every function here is
of one logical processor, because a query reports about the one that executes it (R101). -/

namespace Sys2Proof.Machine

/-- `Leaf1FExists`, `Leaf0BExists` (R110): the effective maximum leaf reaches the leaf, and EBX of its
sub-leaf 0 is not 0; the query is made only where the first holds. -/
def Lp.leafExists (lp : Lp) (limited : Fin 4) (L : Leaf) : Bool :=
  match lp.cpuid limited L 0 with
  | .ok w => w.ebx != 0
  | .error _ => false

/-- `has_x2apic_id(lp)` (R110). -/
def Lp.hasX2apicId (lp : Lp) (limited : Fin 4) : Bool :=
  lp.leafExists limited .l1F || lp.leafExists limited .l0B

/-- The enumeration methods (R111). -/
inductive Method where
  | leaf1F | leaf0B | legacy0104 | legacy01Only
deriving DecidableEq, Repr

/-- `ChooseMethod(lp)` (R111): leaf 1FH, then leaf 0BH, then the legacy leaves. -/
def Lp.chooseMethod (lp : Lp) (limited : Fin 4) : Except Refusal Method :=
  if lp.leafExists limited .l1F then .ok .leaf1F
  else if lp.leafExists limited .l0B then .ok .leaf0B
  else if 4 ≤ lp.effectiveMaxLeaf limited then .ok .legacy0104
  else if 1 ≤ lp.effectiveMaxLeaf limited then .ok .legacy01Only
  else .error .noCpuidApicId

/-- The advisory branch of `ChooseMethod` (R111, 70 R284): the maximum is below 4 and the limit bit is
set, so privileged software may clear the bit and start again. -/
def Lp.advisesRestore (lp : Lp) (limited : Fin 4) : Bool :=
  !lp.leafExists limited .l1F && !lp.leafExists limited .l0B &&
    decide (lp.effectiveMaxLeaf limited < 4) && lp.limitBit

/-- `ID(lp)` (42 R182, 43 R202): the x2APIC ID where there is one, else the initial APIC ID,
zero-extended. -/
def Lp.id (lp : Lp) (limited : Fin 4) : Word :=
  if lp.hasX2apicId limited then lp.cfg.x2apicId else lp.cfg.initialApicId.setWidth 32

/-- The ID as software reads it: EDX of the extended leaf that exists, else EBX[31:24] of leaf 01H
(60 R253, 42 R182). -/
def Lp.queriedId (lp : Lp) (limited : Fin 4) : Except Refusal Word :=
  if lp.leafExists limited .l1F then (lp.cpuid limited .l1F 0).map Words.x2apicId
  else if lp.leafExists limited .l0B then (lp.cpuid limited .l0B 0).map Words.x2apicId
  else (lp.cpuid limited .l01 0).map fun w => w.initialApicId.setWidth 32

end Sys2Proof.Machine
end

