-- ==== Sys2Proof/Machine/Legacy.lean ====
section
/-! DEFINITION. Software, fifth part: the legacy enumeration on the 8-bit initial APIC ID
(44_leaf_01_legacy.md R216 to R224), with 8-bit complements (R215) and the corrected CORE_ID Mask
(R222, 90 C3). -/

namespace Sys2Proof.Machine

/-- What `LegacyMasks` returns (R216). -/
structure LegacyMasks where
  id : Byte
  lpMask : Byte
  coreMask : Byte
  coreShift : Nat
  packageMask : Byte
  packageShift : Nat
deriving DecidableEq, Repr

/-- MaximumLogicalProcessorIDsPerPackage: 1 where HTT is 0 or the field is 0 (R217), else the field
rounded up (R216, R224); 1 to 256. -/
def maxLpIdsPerPackage (htt : Bool) (maxLpIds : Byte) : Nat :=
  if htt = false ∨ maxLpIds = 0 then 1 else (p2 (maxLpIds.setWidth 32)).toNat

/-- MaximumCoreIDsPerPackage: the field plus one rounded up (R216), or 1 where leaf 04H is not there or
reports no cache (R220); 1 to 64. -/
def maxCoreIdsPerPackage : Option (BitVec 6) → Nat
  | none => 1
  | some maxCoreIds => (p2 (maxCoreIds.setWidth 32 + 1)).toNat

/-- The masks from the two counts (R216, R221, R222). -/
def masksOfCounts (id : Byte) (lpIds coreIds : Nat) : Except Refusal LegacyMasks :=
  if lpIds < coreIds then .error .malformedLegacyCounts
  else
    let perCore := lpIds / coreIds
    let lpMask := BitVec.ofNat 8 (perCore - 1)
    .ok {
      id := id
      lpMask := lpMask
      coreMask := BitVec.ofNat 8 (lpIds - 1) &&& ~~~lpMask
      coreShift := perCore.log2
      packageMask := ~~~BitVec.ofNat 8 (lpIds - 1)
      packageShift := lpIds.log2 }

/-- MAX_CORE_IDS as the algorithm takes it: of sub-leaf 0 of leaf 04H, unless that is the Null
terminator (R216, R220). -/
def coreIdsField (r4 : Words) : Option (BitVec 6) :=
  if r4.cacheType = 0 then none else some r4.maxCoreIds

/-- `LegacyMasks(lp)` (R216), and its variant without leaf 04H (R220). -/
def Lp.legacyMasks (lp : Lp) (limited : Fin 4) : Except Refusal LegacyMasks :=
  match lp.cpuid limited .l01 0 with
  | .error r => .error r
  | .ok r1 =>
    let coreIds :=
      match lp.cpuid limited .l04 0 with
      | .error _ => none
      | .ok r4 => coreIdsField r4
    masksOfCounts r1.initialApicId (maxLpIdsPerPackage r1.htt r1.maxLpIds)
      (maxCoreIdsPerPackage coreIds)

/-- LOGICAL_PROCESSOR_ID (R223). -/
def LegacyMasks.lpId (m : LegacyMasks) : Byte := m.id &&& m.lpMask
/-- CORE_ID relative to the package (R223). -/
def LegacyMasks.coreId (m : LegacyMasks) : Byte := (m.id &&& m.coreMask) >>> m.coreShift
/-- PACKAGE_ID (R223). -/
def LegacyMasks.packageId (m : LegacyMasks) : Byte := (m.id &&& m.packageMask) >>> m.packageShift
/-- CORE_ID relative to the system (R223). -/
def LegacyMasks.coreSystemId (m : LegacyMasks) : Byte := m.id &&& ~~~m.lpMask

end Sys2Proof.Machine
end

