-- ==== Sys2Proof/Machine/Caches.lean ====
section
/-! DEFINITION. Software, third part: cache topology from leaf 04H
(42_leaf_04_cache_topology.md R176 to R183). A cache has no contents (10_state.md R34): it is the
record of its parameters and its sharers. -/

namespace Sys2Proof.Machine

/-- A sub-leaf index with the words CPUID returned for it. -/
abbrev Entry := Word × Words

/-- The loop of R176 from sub-leaf `n`, with the number of turns left until sub-leaf 255. -/
def cachesLoop (q : Word → Words) : Nat → Word → List Entry
  | 0, _ => []
  | turns + 1, n => if (q n).cacheType = 0 then [] else (n, q n) :: cachesLoop q turns (n + 1)

/-- `CachesOf` (R176), on what leaf 04H returns: sub-leaves 0 to 255, up to the first Null type. -/
def cachesOf (q : Word → Words) : List Entry := cachesLoop q 256 0

/-- `CACHE_Mask[n]` (R177, R178). -/
def cacheMask (r : Words) : Word := ~~~(p2 r.lpsSharingCache - 1)

/-- `CACHE_ID[n]` of the logical processor with ID `id` (R179). -/
def cacheId (r : Words) (id : Word) : Word := cacheMask r &&& id

/-- Step 6 (R180): the other processor's ID lies in the block reserved for sharers of this cache. -/
def cacheCandidate (r : Words) (id other : Word) : Bool := cacheMask r &&& other == cacheId r id

/-- `SharesCache` (R181): a candidate that enumerates the same four registers at any sub-leaf. -/
def sharesCache (r : Words) (id other : Word) (otherCaches : List Entry) : Bool :=
  cacheCandidate r id other && otherCaches.any fun e => decide (e.2 = r)

/-- `CachesOf(lp)` (R176). -/
def Lp.cachesOf (lp : Lp) (limited : Fin 4) : Except Refusal (List Entry) :=
  if lp.effectiveMaxLeaf limited < Leaf.l04.selector then .error .leafAboveMaximum
  else .ok (Machine.cachesOf (lp.leafWords limited .l04))

/-- A cache as the interface shows it (10 R34, 42 R171): type, level, behaviour, geometry and ID counts
(true values, 30 R78), and its sharers by ID. -/
structure Cache where
  kind : CacheKind
  level : BitVec 3
  selfInit : Bool
  fullyAssoc : Bool
  wbinvdScope : Bool
  inclusive : Bool
  complexIndex : Bool
  lineSize : Nat
  linePartitions : Nat
  ways : Nat
  sets : Nat
  /-- MAX_LP_SHARING's true value, the field plus one (R171). -/
  addressableLpIds : Nat
  /-- The IDs reserved for the sharers: that value rounded up (R177). -/
  reservedLpIds : Nat
  /-- MAX_CORE_IDS' true value, the field plus one (R171). -/
  addressableCoreIds : Nat
  sharers : List Word
deriving DecidableEq, Repr

/-- The cache one valid sub-leaf describes (R171, R183). -/
def Cache.ofWords (r : Words) (sharers : List Word) : Cache where
  kind := CacheKind.ofField r.cacheType
  level := r.cacheLevel
  selfInit := r.selfInit
  fullyAssoc := r.fullyAssoc
  wbinvdScope := r.wbinvdScope
  inclusive := r.inclusive
  complexIndex := r.complexIndex
  lineSize := r.lineSize
  linePartitions := r.linePartitions
  ways := r.ways
  sets := r.sets
  addressableLpIds := r.lpsSharingCache.toNat
  reservedLpIds := (p2 r.lpsSharingCache).toNat
  addressableCoreIds := r.coreIdsInPackage.toNat
  sharers := sharers

end Sys2Proof.Machine
end

