-- ==== Sys2Proof/Machine/Tlbs.lean ====
section
/-! DEFINITION. Software, fourth part: TLB topology from leaf 18H (43_leaf_18_tlb_topology.md R197 to
R204). A translation structure has no contents (10_state.md R37). -/

namespace Sys2Proof.Machine

/-- One turn of R197's loop: a sub-leaf of Null type describes no structure and is skipped. -/
def tlbEntry (q : Word → Words) (n : Nat) : Option Entry :=
  let r := q (BitVec.ofNat 32 n)
  if r.tcType = 0 then none else some (BitVec.ofNat 32 n, r)

/-- `TlbsOf` (R197), on what leaf 18H returns: every sub-leaf from 0 to MAX_SUBLEAF inclusive. -/
def tlbsOf (q : Word → Words) : List Entry :=
  (List.range ((q 0).maxSubleaf.toNat + 1)).filterMap (tlbEntry q)

/-- `TLB_Mask[n]` (R198, R199). -/
def tlbMask (r : Words) : Word := ~~~(p2 r.lpsSharingTlb - 1)

/-- `TLB_ID[n]` (R200). -/
def tlbId (r : Words) (id : Word) : Word := tlbMask r &&& id

/-- Step 6 (R201). -/
def tlbCandidate (r : Words) (id other : Word) : Bool := tlbMask r &&& other == tlbId r id

/-- Step 7's comparison (R203): EBX, ECX and EDX, never EAX. -/
def sameTlb (r e : Words) : Bool := e.ebx == r.ebx && e.ecx == r.ecx && e.edx == r.edx

/-- `SharesTlb` (R203). -/
def sharesTlb (r : Words) (id other : Word) (otherTlbs : List Entry) : Bool :=
  tlbCandidate r id other && otherTlbs.any fun e => sameTlb r e.2

/-- `TlbsOf(lp)` (R197). -/
def Lp.tlbsOf (lp : Lp) (limited : Fin 4) : Except Refusal (List Entry) :=
  if lp.effectiveMaxLeaf limited < Leaf.l18.selector then .error .leafAboveMaximum
  else .ok (Machine.tlbsOf (lp.leafWords limited .l18))

/-- A translation structure as the interface shows it (10 R37, 43 R191), with its sharers by ID. -/
structure Tlb where
  kind : TlbKind
  level : BitVec 3
  fullyAssoc : Bool
  pages4K : Bool
  pages2M : Bool
  pages4M : Bool
  pages1G : Bool
  partitioning : BitVec 3
  ways : BitVec 16
  sets : Word
  /-- TC_MAX_LP_SHARING's true value, the field plus one (R191). -/
  addressableLpIds : Nat
  /-- The IDs reserved for the sharers: that value rounded up (R198). -/
  reservedLpIds : Nat
  sharers : List Word
deriving DecidableEq, Repr

/-- The structure one valid sub-leaf describes (R191, R204). -/
def Tlb.ofWords (r : Words) (sharers : List Word) : Tlb where
  kind := TlbKind.ofField r.tcType
  level := r.tcLevel
  fullyAssoc := r.tcFullyAssoc
  pages4K := r.pages4K
  pages2M := r.pages2M
  pages4M := r.pages4M
  pages1G := r.pages1G
  partitioning := r.partitioning
  ways := r.tcWays
  sets := r.tcSets
  addressableLpIds := r.lpsSharingTlb.toNat
  reservedLpIds := (p2 r.lpsSharingTlb).toNat
  sharers := sharers

end Sys2Proof.Machine
end

