-- ==== Sys2Proof/Machine/Topology.lean ====
section
/-! DEFINITION. Software, second part: system topology from leaves 1FH and 0BH
(41_leaf_1f_0b_system_topology.md R150, R152, R160 to R165) and the decomposition of an APIC ID
(40_cpuid_discovery.md R105 to R108). A function that walks sub-leaves takes what CPUID returns for
them, `q : Word → Words`, on one logical processor. -/

namespace Sys2Proof.Machine

/-! ### Masks (R160 to R164) -/

/-- `(1 << s) - 1`. -/
def lowMask (s : BitVec 5) : Word := ((1 : Word) <<< s.toNat) - 1

/-- LOGICAL_PROCESSOR_ID Mask (R160). -/
def lpMask (lpShift : BitVec 5) : Word := lowMask lpShift

/-- CORE_ID (Relative to System) Mask (R161). -/
def coreSystemMask (lpShift : BitVec 5) : Word := ~~~lowMask lpShift

/-- PACKAGE_ID Mask (R162). -/
def packageMask (coreShift : BitVec 5) : Word := ~~~lowMask coreShift

/-- CORE_ID (Relative to Package) Mask (R163). -/
def coreMask (lpShift coreShift : BitVec 5) : Word := lowMask coreShift &&& ~~~lpMask lpShift

/-- The mask of a domain whose field is bits `shift - 1` down to `lower` (R164). -/
def domainMask (lower shift : BitVec 5) : Word := lowMask shift &&& ~~~lowMask lower

/-- The ID relative to the system of a domain with lower edge `lower`: unshifted (R164). -/
def systemId (lower : BitVec 5) (id : Word) : Word := id &&& ~~~lowMask lower

/-! ### Sub-IDs (40 R106) -/

/-- The sub-ID of a domain with lower edge `lower` and shift `shift` (40 R106). -/
def subId (lower shift : BitVec 5) (id : Word) : Word := (id &&& domainMask lower shift) >>> lower.toNat

/-- LOGICAL_PROCESSOR_ID (R160). -/
def lpId (lpShift : BitVec 5) (id : Word) : Word := id &&& lpMask lpShift

/-- CORE_ID relative to the package (R163). -/
def coreId (lpShift coreShift : BitVec 5) (id : Word) : Word :=
  (id &&& coreMask lpShift coreShift) >>> lpShift.toNat

/-- PACKAGE_ID (R162). -/
def packageId (coreShift : BitVec 5) (id : Word) : Word :=
  (id &&& packageMask coreShift) >>> coreShift.toNat

/-! ### Sameness (40 R108) -/

/-- In the same package. -/
def samePackage (coreShift : BitVec 5) (p q : Word) : Bool :=
  p &&& packageMask coreShift == q &&& packageMask coreShift

/-- In the same core. -/
def sameCore (lpShift : BitVec 5) (p q : Word) : Bool :=
  p &&& coreSystemMask lpShift == q &&& coreSystemMask lpShift

/-- In the same instance of the domain whose shift is `shift`. -/
def sameInstance (shift : BitVec 5) (p q : Word) : Bool := p >>> shift.toNat == q >>> shift.toNat

/-! ### The three-domain extraction (R150) -/

/-- The loop of R150 from sub-leaf `n`, with the number of turns left until sub-leaf 255. -/
def threeDomainLoop (lpType : Byte) (q : Word → Words) : Nat → Word → BitVec 5 → BitVec 5
  | 0, _, coreShift => coreShift
  | turns + 1, n, coreShift =>
    if (q n).ebx = 0 then coreShift
    else threeDomainLoop lpType q turns (n + 1)
      (if (q n).domainType ≠ lpType then (q n).shift else coreShift)

/-- `ThreeDomainShifts` (R150): Logical_Processor_Shift and Core_Shift. -/
def threeDomainShifts (dt : DomainTypes) (q : Word → Words) : BitVec 5 × BitVec 5 :=
  ((q 0).shift, threeDomainLoop dt.lp q 255 1 (q 0).shift)

/-! ### More than three domains (R152, R154) -/

/-- A map from Domain Types to shifts. -/
abbrev ShiftMap := List (Byte × BitVec 5)

/-- `m[t] <- v`. -/
def ShiftMap.put (m : ShiftMap) (t : Byte) (v : BitVec 5) : ShiftMap :=
  if m.any fun e => e.1 == t then m.map fun e => if e.1 = t then (t, v) else e
  else m ++ [(t, v)]

/-- `m[t]`, if `t` is in the map. -/
def ShiftMap.value (m : ShiftMap) (t : Byte) : Option (BitVec 5) := m.lookup t

/-- The variables of R152's loop. -/
structure DomainWalk where
  shift : ShiftMap
  lower : ShiftMap
  current : Byte
  prevShift : BitVec 5
deriving DecidableEq, Repr

/-- One turn of R152's loop on a valid sub-leaf's result: a known type opens its own field, an unknown
one is absorbed into the current one (R149). -/
def DomainWalk.visit (known : List Byte) (w : DomainWalk) (r : Words) : DomainWalk :=
  if known.contains r.domainType then
    { shift := w.shift.put r.domainType r.shift
      lower := w.lower.put r.domainType w.prevShift
      current := r.domainType
      prevShift := r.shift }
  else { w with shift := w.shift.put w.current r.shift, prevShift := r.shift }

/-- The loop of R152 from sub-leaf `n`. -/
def nDomainLoop (known : List Byte) (q : Word → Words) : Nat → Word → DomainWalk → DomainWalk
  | 0, _, w => w
  | turns + 1, n, w =>
    if (q n).ebx = 0 then w else nDomainLoop known q turns (n + 1) (w.visit known (q n))

/-- The first step of R152: the logical-processor domain of sub-leaf 0. -/
def domainWalkStart (dt : DomainTypes) (q : Word → Words) : DomainWalk where
  shift := [(dt.lp, (q 0).shift)]
  lower := [(dt.lp, 0)]
  current := dt.lp
  prevShift := (q 0).shift

/-- What `NDomainShifts` returns; TrueCore_Shift is there where the core domain was enumerated. -/
structure DomainShifts where
  shift : ShiftMap
  lower : ShiftMap
  coreShift : BitVec 5
  trueCoreShift : Option (BitVec 5)
deriving DecidableEq, Repr

/-- The constraint on the software's set `KNOWN` (00 R9, R152): it always contains the logical-processor
and the core domain. -/
abbrev KnownWf (dt : DomainTypes) (known : List Byte) : Prop := dt.lp ∈ known ∧ dt.core ∈ known

/-- `NDomainShifts` (R152) for the software's set `KNOWN`, which `KnownWf` constrains. -/
def nDomainShifts (dt : DomainTypes) (known : List Byte) (q : Word → Words) : DomainShifts :=
  let w := nDomainLoop known q 255 1 (domainWalkStart dt q)
  { shift := w.shift, lower := w.lower, coreShift := w.prevShift, trueCoreShift := w.shift.value dt.core }

/-- The shift of a known domain, or, where the processor does not enumerate it, that of the nearest
enumerated domain below it, which gives it width 0 (R152). -/
def DomainShifts.shiftOf (r : DomainShifts) (dt : DomainTypes) (d : Domain) : Option (BitVec 5) :=
  ([Domain.dieGrp, .die, .tile, .module, .core, .lp].filter fun e => e.rank ≤ d.rank).findSome?
    fun e => r.shift.value (dt.value e)

/-- The mask and right shift of an enumerated known domain (R154, R164). -/
def DomainShifts.maskOf (r : DomainShifts) (t : Byte) : Option (Word × BitVec 5) :=
  match r.shift.value t, r.lower.value t with
  | some shift, some lower => some (domainMask lower shift, lower)
  | _, _ => none

/-! ### On a logical processor -/

/-- `ThreeDomainShifts(lp, x)` (R150): every query is of leaf `x`. -/
def Lp.threeDomainShifts (lp : Lp) (limited : Fin 4) (dt : DomainTypes) (x : Leaf) :
    Except Refusal (BitVec 5 × BitVec 5) :=
  if lp.effectiveMaxLeaf limited < x.selector then .error .leafAboveMaximum
  else .ok (Machine.threeDomainShifts dt (lp.leafWords limited x))

/-- `NDomainShifts(lp, x, KNOWN)` (R152). -/
def Lp.nDomainShifts (lp : Lp) (limited : Fin 4) (dt : DomainTypes) (x : Leaf) (known : List Byte) :
    Except Refusal DomainShifts :=
  if lp.effectiveMaxLeaf limited < x.selector then .error .leafAboveMaximum
  else .ok (Machine.nDomainShifts dt known (lp.leafWords limited x))

end Sys2Proof.Machine
end

