-- ==== Sys2Proof/Machine/Analysis.lean ====
section
/-! DEFINITION. Software, last part: gathering and analysing (45_analysis.md R230 to R232). -/

namespace Sys2Proof.Machine

/-- The two shifts a method yields on a logical processor: where the core field begins and where the
package field begins (41 R150, 44 R216). -/
structure FieldShifts where
  lpShift : Nat
  coreShift : Nat
deriving DecidableEq, Repr

/-- One row of the platform-wide table (R230). DESIGN CHOICE (notes/assumptions/15): the shift values of a
row are the two of the three-domain view; software with a larger `KNOWN` (90 C11) keeps the maps of
`Lp.nDomainShifts` for the same logical processor beside the row. -/
structure Row where
  id : Word
  shifts : FieldShifts
  caches : List Entry
  tlbs : List Entry
deriving DecidableEq, Repr

/-- The shifts by the method that `ChooseMethod` gives (40 R111, 41 R150, 44 R216, R220), always those of
the three-domain view: DESIGN CHOICE (notes/assumptions/15), since R230 lets software derive them by 41
R150 or R152. -/
def Lp.fieldShifts (lp : Lp) (limited : Fin 4) (dt : DomainTypes) : Except Refusal FieldShifts :=
  match lp.chooseMethod limited with
  | .error r => .error r
  | .ok .leaf1F =>
    (lp.threeDomainShifts limited dt .l1F).map fun p => ⟨p.1.toNat, p.2.toNat⟩
  | .ok .leaf0B =>
    (lp.threeDomainShifts limited dt .l0B).map fun p => ⟨p.1.toNat, p.2.toNat⟩
  | .ok .legacy0104 => (lp.legacyMasks limited).map fun m => ⟨m.coreShift, m.packageShift⟩
  | .ok .legacy01Only => (lp.legacyMasks limited).map fun m => ⟨m.coreShift, m.packageShift⟩

/-- The row of one logical processor (R230). Software that follows the source does not query a leaf
above the maximum, so where leaf 04H or 18H is not reported its list is empty. -/
def Lp.row (lp : Lp) (limited : Fin 4) (dt : DomainTypes) : Except Refusal Row :=
  (lp.fieldShifts limited dt).map fun f =>
    { id := lp.id limited
      shifts := f
      caches := (lp.cachesOf limited).toOption.getD []
      tlbs := (lp.tlbsOf limited).toOption.getD [] }

/-- The table: one row per logical processor, gathered by running on each in turn (R230, 70 R277). -/
def State.gather (s : State) : Except Refusal (List Row) :=
  s.lps.mapM fun lp => lp.row s.limitedMaxLeaf s.domainTypes

/-- The sharers of a cache of the row's logical processor (42 R181). -/
def cacheSharers (rows : List Row) (row : Row) (r : Words) : List Word :=
  (rows.filter fun m => sharesCache r row.id m.id m.caches).map Row.id

/-- The sharers of a translation structure of the row's logical processor (43 R203). -/
def tlbSharers (rows : List Row) (row : Row) (r : Words) : List Word :=
  (rows.filter fun m => sharesTlb r row.id m.id m.tlbs).map Row.id

/-- The caches of a row, each with its sharers (42 R183). -/
def Row.cacheRecords (row : Row) (rows : List Row) : List Cache :=
  row.caches.map fun e => Cache.ofWords e.2 (cacheSharers rows row e.2)

/-- The translation structures of a row, each with its sharers (43 R204). -/
def Row.tlbRecords (row : Row) (rows : List Row) : List Tlb :=
  row.tlbs.map fun e => Tlb.ofWords e.2 (tlbSharers rows row e.2)

/-- `instances(d)` of a domain with shift `shift` (R231): the distinct values of `ID >> shift`. -/
def instances (shift : Nat) (ids : List Word) : List Word := (ids.map fun i : Word => i >>> shift).dedup

/-- `count(d)` (R231). -/
def countInstances (shift : Nat) (ids : List Word) : Nat := (instances shift ids).length

/-- The distinct values of the IDs under a mask: packages, cores (R231). -/
def maskedIds (mask : Word) (ids : List Word) : List Word := (ids.map fun i : Word => i &&& mask).dedup

/-- The ordinal of a logical processor's instance of a domain within its parent instance (R232): its
rank, from 0, among the distinct sub-IDs that occur under that parent. -/
def ordinal (lower shift : BitVec 5) (ids : List Word) (id : Word) : Nat :=
  ((ids.filter fun j => sameInstance shift j id).map (subId lower shift)).dedup.countP
    fun v => decide (v < subId lower shift id)

/-- The ordinal of a logical processor's package among the packages present (R232). -/
def packageOrdinal (coreShift : BitVec 5) (ids : List Word) (id : Word) : Nat :=
  (ids.map (packageId coreShift)).dedup.countP fun v => decide (v < packageId coreShift id)

end Sys2Proof.Machine
end

