-- ==== Sys2Proof/Machine/Platform.lean ====
section
/-! DEFINITION. The well-formedness rules of a configuration (60_exceptions.md R244): what the spec's
tables promise, stated on what CPUID returns. A platform that breaks one is outside the interface; the
machine's step does not depend on them. -/

namespace Sys2Proof.Machine

/-- Whether full reporting reaches a leaf. -/
abbrev reports (c : LpConfig) (L : Leaf) : Prop := L.selector ≤ c.leaf00.maxBasicLeaf

/-- An extended leaf with `valid` valid sub-leaves (41 R140 to R146), `q n` being what sub-leaf `n`
returns. R145 (echo and x2APIC ID on every sub-leaf) holds of every configuration, by `extendedWords`. -/
structure ExtendedWf (dt : DomainTypes) (q : Word → Words) (valid : Nat) : Prop where
  /-- R140: sub-leaf 0 is the logical-processor domain, sub-leaf 1 the core domain. -/
  lowest : (q 0).domainType = dt.lp ∧ (q 1).domainType = dt.core
  /-- R140, R141: at least the two are valid; the first invalid index is at most 255 (92 D11). -/
  count : 2 ≤ valid ∧ valid ≤ 255
  /-- R141: the invalid sub-leaves form a tail. -/
  validity : ∀ n : Word, (q n).domainType ≠ 0 ↔ n.toNat < valid
  /-- R142: an invalid sub-leaf returns 0 in EAX and EBX. -/
  invalid : ∀ n : Word, valid ≤ n.toNat → (q n).eax = 0 ∧ (q n).ebx = 0
  /-- R143: the count of a valid sub-leaf is at least 1. -/
  counted : ∀ n : Word, n.toNat < valid → 1 ≤ (q n).numLp
  /-- R144: the shift does not decrease. -/
  monotone : ∀ n m : Word, n.toNat ≤ m.toNat → m.toNat < valid → (q n).shift ≤ (q m).shift
  /-- R146: no type occurs twice. -/
  distinct : ∀ n m : Word, n.toNat < valid → m.toNat < valid →
    (q n).domainType = (q m).domainType → n = m
  /-- R146: the defined types occur in the order of the hierarchy. -/
  ordered : ∀ (n m : Word) (d e : Domain), n.toNat < m.toNat → m.toNat < valid →
    (q n).domainType = dt.value d → (q m).domainType = dt.value e → d.rank < e.rank

/-- Leaf 04H with `k` caches (42 R172 to R174). -/
structure CachesWf (q : Word → Words) (k : Nat) : Prop where
  /-- R172: sub-leaves below `k` are valid, sub-leaf `k` is Null, `k` at most 255 (92 D11). -/
  bound : k ≤ 255
  valid : ∀ n : Word, n.toNat < k → (q n).cacheType ≠ 0
  null : (q (BitVec.ofNat 32 k)).cacheType = 0
  /-- R172, 30 R81: every sub-leaf after the Null one returns four zeros. -/
  invalid : ∀ n : Word, k < n.toNat → q n = Words.zero
  /-- R173: MAX_CORE_IDS is the same in every valid sub-leaf. -/
  constant : ∀ n m : Word, n.toNat < k → m.toNat < k → (q n).maxCoreIds = (q m).maxCoreIds
  /-- R174: the level starts at 1 and EDX[31:3] is 0. -/
  level : ∀ n : Word, n.toNat < k → 1 ≤ (q n).cacheLevel ∧ (q n).cacheReservedEdx = 0

/-- Leaf 18H (43 R192, R193, R195). -/
structure TlbsWf (q : Word → Words) : Prop where
  /-- R192: an invalid sub-leaf above 0 returns four zeros. -/
  invalid : ∀ n : Word, n ≠ 0 → ((q 0).maxSubleaf < n ∨ (q n).tcType = 0) → q n = Words.zero
  /-- R193: sub-leaf 0 of Null type returns 0 in EBX, ECX and EDX. -/
  main : (q 0).tcType = 0 → (q 0).ebx = 0 ∧ (q 0).ecx = 0 ∧ (q 0).edx = 0
  /-- R195: the level of a valid sub-leaf starts at 1. -/
  level : ∀ n : Word, (q n).tcType ≠ 0 → 1 ≤ (q n).tcLevel

/-- The rules on one logical processor's configuration. Leaf 0BH has exactly the two sub-leaves of
the logical-processor and core domains (41 R138). -/
structure LpConfigWf (dt : DomainTypes) (limited : Fin 4) (c : LpConfig) : Prop where
  leaf1F : reports c .l1F → c.leaf1F.implemented = true →
    ∃ valid, ExtendedWf dt (extendedWords c.leaf1F c.x2apicId) valid
  leaf0B : reports c .l0B → c.leaf0B.implemented = true →
    ExtendedWf dt (extendedWords c.leaf0B c.x2apicId) 2
  leaf04 : reports c .l04 → ∃ k, CachesWf c.leaf04.at k
  leaf18 : reports c .l18 → TlbsWf c.leaf18.at
  /-- 44 R212: leaf 01H reports the initial APIC ID. -/
  leaf01 : reports c .l01 → c.leaf01.initialApicId = c.initialApicId
  /-- 40 R104: limiting never raises the maximum. -/
  limit : c.hasLimitBit = true → BitVec.ofNat 32 limited.val ≤ c.leaf00.maxBasicLeaf

/-- Whether a processor supports the x2APIC ID (40 R110, under full reporting). -/
abbrev supportsX2apic (c : LpConfig) : Prop :=
  (reports c .l1F ∧ c.leaf1F.implemented = true) ∨ (reports c .l0B ∧ c.leaf0B.implemented = true)

/-- The unique ID of a logical processor (10 R25, R26): the x2APIC ID where the processor supports it,
else the initial APIC ID, which is "the unique ID of rule R25's quotation" there; zero-extended, as 42
R182 compares IDs. -/
def uniqueId (c : LpConfig) : Word :=
  if supportsX2apic c then c.x2apicId else c.initialApicId.setWidth 32

/-- The IDs are unique in the coherent domain (10 R25, R26): the x2APIC IDs among processors that have
one, and the initial APIC IDs among those that do not, on a mixed platform too. That on a mixed platform
the two kinds are unique together, zero-extended, is DEDUCED (notes/assumptions/17). -/
def IdsWf (cs : List LpConfig) : Prop := cs.Pairwise fun c d => uniqueId c ≠ uniqueId d

/-- A platform the interface describes (R244). -/
structure PlatformWf (cs : List LpConfig) (limited : Fin 4) (dt : DomainTypes) : Prop where
  /-- `LPS` is not empty (10 R24). -/
  nonempty : cs ≠ []
  types : dt.wf = true
  each : ∀ c ∈ cs, LpConfigWf dt limited c
  ids : IdsWf cs

/-! ### The named optional assumptions -/

/-- `WF_UNIFORM_SHIFTS` (10 R30): the shifts and types are the same on all logical processors. -/
def UniformShifts (cs : List LpConfig) : Prop :=
  ∀ c ∈ cs, ∀ d ∈ cs, ∀ n : Word,
    ((extendedWords c.leaf1F c.x2apicId n).shift = (extendedWords d.leaf1F d.x2apicId n).shift ∧
      (extendedWords c.leaf1F c.x2apicId n).domainType =
        (extendedWords d.leaf1F d.x2apicId n).domainType) ∧
    ((extendedWords c.leaf0B c.x2apicId n).shift = (extendedWords d.leaf0B d.x2apicId n).shift ∧
      (extendedWords c.leaf0B c.x2apicId n).domainType =
        (extendedWords d.leaf0B d.x2apicId n).domainType)

/-- `WF_0B_AGREES_1F` (41 R139, 92 D36): the same shift at sub-leaf 0, leaf 0BH's core shift the shift
of leaf 1FH's last valid sub-leaf, and the same EDX; `q` is leaf 0BH, `r` leaf 1FH with `valid` valid
sub-leaves. -/
structure Leaf0BAgrees (q r : Word → Words) (valid : Nat) : Prop where
  first : (q 0).shift = (r 0).shift
  last : (q 1).shift = (r (BitVec.ofNat 32 (valid - 1))).shift
  ids : ∀ n : Word, (q n).edx = (r n).edx

/-- The two counts of leaves 01H and 04H fit (44 R214): the IDs reserved for cores in those reserved for
logical processors; `r1` is leaf 01H, `r4` sub-leaf 0 of leaf 04H. R214 guards the first count; that a
Null sub-leaf 0, whose MAX_CORE_IDS says nothing (44 R220), is not compared is 92 D21's "when both are
valid" (DEDUCED, notes/assumptions/17). -/
def LegacyConsistent (r1 r4 : Words) : Prop :=
  r1.htt = true → r1.maxLpIds ≠ 0 → r4.cacheType ≠ 0 →
    p2 r4.coreIdsInPackage ≤ p2 (r1.maxLpIds.setWidth 32)

/-- `WF_LEGACY` (44 R214): so it is on every logical processor on which the algorithm is applied with leaf
04H, that is, one with no extended leaf whose maximum reaches leaf 04H (40 R111). -/
def WfLegacy (cs : List LpConfig) : Prop :=
  ∀ c ∈ cs, reports c .l04 → ¬supportsX2apic c → LegacyConsistent c.leaf01 (c.leaf04.at 0)

end Sys2Proof.Machine
end

