-- ==== Sys2Proof/Safety.lean ====
section
/-! DEFINITION. What claims call a good state and a safe step (60_exceptions.md R245: "a theorem about
software should prove that the software never reaches a refusing step"). -/

namespace Sys2Proof.Machine

/-- The step from this state has a successor. -/
def Safe (s : State) : Prop := ∃ t, step s = .next t

/-- The registers of a logical processor hold values as 10 R20 and R22 allow: EBX and EDX are written
by CPUID alone, which writes all four, so either both hold a value and so do EAX and ECX, or neither
does. -/
def Lp.registersInv (lp : Lp) : Prop :=
  lp.ebx.holds = lp.edx.holds ∧ (lp.ebx.holds = true → lp.eax.holds = true ∧ lp.ecx.holds = true)

/-- Where the limit bit does not exist it is 0 (40 R104: "constantly 0"). -/
def Lp.limitInv (lp : Lp) : Prop :=
  lp.cfg.hasLimitBit = false → lp.miscEnables.getLsbD 22 = false

/-- The invariant of the machine: a well-formed platform (60 R244), registers and limit bit as above on
every logical processor, and every step, at hand or pending, on a logical processor of the platform
(60 R250). -/
structure Inv (s : State) : Prop where
  platform : PlatformWf (s.lps.map Lp.cfg) s.limitedMaxLeaf s.domainTypes
  registers : ∀ lp ∈ s.lps, lp.registersInv
  limit : ∀ lp ∈ s.lps, lp.limitInv
  current : s.cur < s.lps.length
  bound : ∀ p ∈ s.queue, ∀ k, p.on = some k → k < s.lps.length

end Sys2Proof.Machine
end

