-- ==== Sys2Proof/Certificates/Slice0/Obligations.lean ====
section
/-! DEFINITION. The statements for the provers. Each cites the rule of the spec it formalises in
OBLIGATIONS.json; a statement that rests on a choice of the model says so and names its log entry. -/

open Sys2Proof Sys2Proof.Machine Host

/-- The seven instructions that execute CPUID. -/
def Sys2Proof.Machine.isCpuid : Instr → Bool
  | .cpuid => true
  | .cpuid00 => true
  | .cpuid01 => true
  | .cpuid04 _ => true
  | .cpuid0B _ => true
  | .cpuid18 _ => true
  | .cpuid1F _ => true
  | .wrmsr _ _ => false
  | .rdmsr _ => false
  | .wbinvd => false
  | .invd => false
  | .clflush _ _ => false
  | .clflushopt _ _ => false

/-- The query row of a leaf, with its sub-leaf operand where it has one. -/
def Sys2Proof.Machine.rowOf : Leaf → Word → Instr
  | .l00, _ => .cpuid00
  | .l01, _ => .cpuid01
  | .l04, n => .cpuid04 n
  | .l0B, n => .cpuid0B n
  | .l18, n => .cpuid18 n
  | .l1F, n => .cpuid1F n

/-! ### Decoding -/

/-- A few words of the table, written out from the spec's encodings (30 R71, R80, R84; the bytes are
general knowledge, 93 K1 and K3, notes/assumptions/4). The operands that the words 0x0F30 and 0x0F32
decode to are the model's choice: the zero bytes after the opcode, which it reads as the target
IA32_MISC_ENABLES[22] and the value 0 (notes/assumptions/5). -/
def Obligations.TableWordsDecode : Prop :=
  decodeTableWord 16 0x0FA2 = some .cpuid ∧
  decodeTableWord 32 0x00000000 = some .cpuid00 ∧
  decodeTableWord 32 0x00000001 = some .cpuid01 ∧
  decodeTableWord 32 0x00000004 = some (.cpuid04 0) ∧
  decodeTableWord 32 0x0000000B = some (.cpuid0B 0) ∧
  decodeTableWord 32 0x00000018 = some (.cpuid18 0) ∧
  decodeTableWord 32 0x0000001F = some (.cpuid1F 0) ∧
  decodeTableWord 16 0x0F30 = some (.wrmsr .limitBit false) ∧
  decodeTableWord 16 0x0F32 = some (.rdmsr .limitBit) ∧
  decodeTableWord 16 0x0F09 = some .wbinvd ∧
  decodeTableWord 16 0x0F08 = some .invd ∧
  decodeTableWord 24 0x0FAE38 = some (.clflush 0 0) ∧
  decodeTableWord 32 0x660FAE38 = some (.clflushopt 0 0) ∧
  decodeTableWord 32 0x00000002 = none

/-- Decode and encode agree on every well-formed instruction, with every operand. -/
def Obligations.DecodeEncodeAgree : Prop :=
  ∀ i : Instr, i.wellFormed = true → decode (encode i) = .ok i

/-- Every code that decodes gives a well-formed instruction that round-trips, and the code begins with
that instruction's own encoding: bytes that decode are those of `encode i`, followed by bytes that are
no part of it, and a selector pair that decodes is that of `encode i`, but for the ECX of a leaf without
sub-leaves. So no reserved form and no unlisted selector falls through to an instruction. The operand
bytes are the model's choice (notes/assumptions/5). -/
def Obligations.DecodedIsWellFormed : Prop :=
  ∀ (c : Code) (i : Instr), decode c = .ok i →
    i.wellFormed = true ∧ decode (encode i) = .ok i ∧
    (∀ b, c = .bytes b → ∃ own rest, encode i = .bytes own ∧ b = own ++ rest) ∧
    (∀ eax ecx, c = .query eax ecx → ∃ L : Leaf, eax = L.selector ∧
      encode i = .query eax (if usesSubleaf L = true then ecx else 0))

/-- A selector pair is an instruction exactly when its first word is one of the six leaf numbers, and
then it is that leaf's row (30 R71, R80, R85; notes/assumptions/12). -/
def Obligations.SelectorMap : Prop :=
  (∀ (L : Leaf) (n : Word), decode (.query L.selector n) = .ok (rowOf L n)) ∧
  ∀ eax ecx : Word, (∀ L : Leaf, eax ≠ L.selector) →
    decode (.query eax ecx) = .error .unlistedSelector

/-! ### Steps and lines -/

/-- A step runs the decoded instruction: the line at the head of the pending list, on the logical
processor it is bound to and by its agent's layer, with the line taken off the list (the pending list is
the model's, notes/assumptions/11). -/
def Obligations.StepRunsDecodedInstruction : Prop :=
  ∀ (s : State) (p : Pending) (rest : List Pending) (c : Code) (i : Instr),
    s.queue = p :: rest → p.line = .code c → decode c = .ok i →
    step s = exec i (s.issue p rest) ∧
    (s.issue p rest).lps = s.lps ∧ (s.issue p rest).queue = rest ∧
    (s.issue p rest).layer = p.layer ∧ (s.issue p rest).readBit = s.readBit ∧ (s.issue p rest).vars = s.vars ∧
    (s.issue p rest).limitedMaxLeaf = s.limitedMaxLeaf ∧
    (s.issue p rest).domainTypes = s.domainTypes ∧
    (∀ k, p.on = some k → (s.issue p rest).cur = k ∧ (s.issue p rest).freeCount = s.freeCount)

/-- A table word that decodes runs as the next step of any state, and changes nothing else (how a word
is placed is the model's, notes/assumptions/11). -/
def Obligations.TableWordRunsNext : Prop :=
  ∀ (s : State) (nbits w : Nat) (i : Instr),
    decodeTableWord nbits w = some i → step (s.withFetchWord nbits w) = exec i s

/-- The lines of a query program that are no instruction (30 R87). `EAX <- e` and `ECX <- e`: the register
holds the value of the expression, and nothing else of any logical processor changes. Pure computation
keeps the value in the software's next variable, and the machine is as before. The value of a constant is
the constant; of a register or a variable what it holds; of a slice its bits (00 R10); and the operators
are those of 00 R12, on words modulo 2^32, with P2 and LOG2 of 00 R14 and R15. The variables and the
value where none is stated are the model's choice (notes/assumptions/18); of the latter this says
nothing. -/
def Obligations.RegisterLinesSet : Prop :=
  ∀ (s : State) (lp : Lp) (e : Expr), s.lps[s.cur]? = some lp →
    runLine (.setEax e) s = .next (s.setLp s.cur { lp with eax := ⟨s.value lp e, true⟩ }) ∧
    runLine (.setEcx e) s = .next (s.setLp s.cur { lp with ecx := ⟨s.value lp e, true⟩ }) ∧
    runLine (.keep e) s = .next { s with vars := s.vars ++ [s.value lp e] } ∧
    (∀ v, s.value lp (.const v) = v) ∧
    (∀ r v, lp.reg r = Reg.of v → s.value lp (.reg r) = v) ∧
    (∀ k v, s.vars[k]? = some v → s.value lp (.var k) = v) ∧
    (s.value lp .limitBit).toNat = s.readBit.toNat ∧
    (∀ lo len, 0 < len → lo + len ≤ 32 →
      (s.value lp (.slice e lo len)).toNat = (s.value lp e).toNat / 2 ^ lo % 2 ^ len) ∧
    (s.value lp (.not e)).toNat = 0xFFFFFFFF - (s.value lp e).toNat ∧
    (∀ k, (s.value lp e).toNat = 2 ^ k → (s.value lp (.log2 e)).toNat = k) ∧
    (1 ≤ s.value lp e → s.value lp e ≤ 0x80000000 → s.value lp (.p2 e) = p2 (s.value lp e)) ∧
    ∀ d : Expr,
      let x := (s.value lp e).toNat
      let y := (s.value lp d).toNat
      let of := fun op => (s.value lp (.bin op e d)).toNat
      of .and = x &&& y ∧ of .or = x ||| y ∧ of .add = (x + y) % 2 ^ 32 ∧
      of .sub = (x + (2 ^ 32 - y)) % 2 ^ 32 ∧ of .mul = x * y % 2 ^ 32 ∧
      (y ≠ 0 → of .div = x / y) ∧
      (y < 32 → of .shl = x * 2 ^ y % 2 ^ 32 ∧ of .shr = x / 2 ^ y)

/-- Every code that is no instruction is refused: a selector pair of an unlisted leaf as an unlisted leaf,
and bytes that name no instruction of the table, whatever follows them, as an instruction outside the
model (60 R241). Bytes that end inside an instruction of the table, and only those, are refused as
truncated; that reason is the model's own (notes/assumptions/11), and which bytes are an instruction is
in notes/assumptions/4 and 5. -/
def Obligations.UndecodableLinesRefused : Prop :=
  ∀ s : State,
    (∀ eax ecx : Word, (∀ L : Leaf, eax ≠ L.selector) →
      runLine (.code (.query eax ecx)) s = .refused .unlistedLeaf) ∧
    ∀ (b : List Byte) (e : DecodeError), decode (.bytes b) = .error e →
      (e ≠ .truncated → (∀ more, decode (.bytes (b ++ more)) = .error e) ∧
        runLine (.code (.bytes b)) s = .refused .unmodelledInstruction) ∧
      (e = .truncated → (∃ more i, decode (.bytes (b ++ more)) = .ok i) ∧
        runLine (.code (.bytes b)) s = .refused .truncatedCode)

/-- What a step can answer. With nothing pending the run has ended (70 R273). A pending line on a logical
processor of the platform completes, or is refused for one of the five reasons of 60 R241 that a step
can meet; there is no exception (60 R240). Only a line whose bytes end inside an instruction is refused
for the model's own reason truncatedCode; that one, endOfRun and the pending list are the model's
choice (notes/assumptions/11). -/
def Obligations.StepCompletesOrIsRefused : Prop :=
  ∀ s : State,
    (s.queue = [] → step s = .refused .endOfRun) ∧
    ∀ (p : Pending) (rest : List Pending), s.queue = p :: rest → s.lps ≠ [] →
      (∀ k, p.on = some k → k < s.lps.length) →
      (∃ t, step s = .next t) ∨
      step s = .refused .registerHoldsNoValue ∨
      step s = .refused .unlistedLeaf ∨
      step s = .refused .leafAboveMaximum ∨
      step s = .refused .unmodelledInstruction ∨
      step s = .refused .msrAccessWithoutPrivilege ∨
      (step s = .refused .truncatedCode ∧
        ∃ b, p.line = .code (.bytes b) ∧ decode (.bytes b) = .error .truncated)

/-! ### CPUID -/

/-- CPUID (40 R100): the two inputs are read from EAX and, for a leaf with sub-leaves, ECX; the checks
are a register without a value, an unlisted leaf, a leaf above the effective maximum; otherwise the
four words of the leaf's table entry overwrite the four registers. The three refusals are choices and
no behaviour of hardware (60 R241): that of a register without a value is 10 R22's, the spec's choice
92 D17 (notes/assumptions/1 has the model's form of it), and the other two are the boundaries of 30 R85,
the spec's choice 92 D5. -/
def Obligations.CpuidGeneralRule : Prop :=
  ∀ (s : State) (lp : Lp), s.lps[s.cur]? = some lp →
    (lp.eax.holds = false → exec .cpuid s = .refused .registerHoldsNoValue) ∧
    (∀ L : Leaf, lp.eax = Reg.of L.selector → usesSubleaf L = true → lp.ecx.holds = false →
      exec .cpuid s = .refused .registerHoldsNoValue) ∧
    (∀ v : Word, lp.eax = Reg.of v → (∀ L : Leaf, v ≠ L.selector) →
      exec .cpuid s = .refused .unlistedLeaf) ∧
    (∀ (L : Leaf) (n : Word), lp.eax = Reg.of L.selector →
      (usesSubleaf L = true → lp.ecx = Reg.of n) →
      (lp.effectiveMaxLeaf s.limitedMaxLeaf < L.selector →
        exec .cpuid s = .refused .leafAboveMaximum) ∧
      (L.selector ≤ lp.effectiveMaxLeaf s.limitedMaxLeaf →
        exec .cpuid s =
          .next (s.setLp s.cur (lp.withResults (lp.leafWords s.limitedMaxLeaf L n)))))

/-- A query row is CPUID with its selector pair in EAX and ECX (30 R71; that the row brings the pair
itself is the model's choice, notes/assumptions/12). -/
def Obligations.QueryRowIsCpuid : Prop :=
  ∀ (s : State) (lp : Lp) (L : Leaf) (n : Word), s.lps[s.cur]? = some lp →
    lp.eax = Reg.of L.selector → (usesSubleaf L = true → lp.ecx = Reg.of n) →
    exec (rowOf L n) s = exec .cpuid s

/-- Leaf 00H always completes: EAX is the effective maximum leaf, the other three the table's
(40 R103). -/
def Obligations.Leaf00Result : Prop :=
  ∀ (s : State) (lp : Lp), s.lps[s.cur]? = some lp →
    exec .cpuid00 s = .next (s.setLp s.cur { lp with
      eax := ⟨lp.effectiveMaxLeaf s.limitedMaxLeaf, true⟩
      ebx := ⟨lp.cfg.leaf00.ebx, true⟩
      ecx := ⟨lp.cfg.leaf00.ecx, true⟩
      edx := ⟨lp.cfg.leaf00.edx, true⟩ })

/-- Leaf 01H, where the effective maximum reaches it: the table's four words (44 R210); where it does not,
the query is refused, whatever the registers hold (44 R210 by 40 R100). -/
def Obligations.Leaf01Result : Prop :=
  ∀ (s : State) (lp : Lp), s.lps[s.cur]? = some lp →
    (lp.effectiveMaxLeaf s.limitedMaxLeaf < 1 → exec .cpuid01 s = .refused .leafAboveMaximum) ∧
    (1 ≤ lp.effectiveMaxLeaf s.limitedMaxLeaf →
      exec .cpuid01 s = .next (s.setLp s.cur { lp with
        eax := ⟨lp.cfg.leaf01.eax, true⟩
        ebx := ⟨lp.cfg.leaf01.ebx, true⟩
        ecx := ⟨lp.cfg.leaf01.ecx, true⟩
        edx := ⟨lp.cfg.leaf01.edx, true⟩ }))

/-- Leaf 04H, where the effective maximum reaches it: the four words of the sub-leaf (42 R170); where it
does not, the query is refused, whatever the registers hold (40 R100). -/
def Obligations.Leaf04Result : Prop :=
  ∀ (s : State) (lp : Lp) (n : Word), s.lps[s.cur]? = some lp →
    (lp.effectiveMaxLeaf s.limitedMaxLeaf < 4 → exec (.cpuid04 n) s = .refused .leafAboveMaximum) ∧
    (4 ≤ lp.effectiveMaxLeaf s.limitedMaxLeaf →
      exec (.cpuid04 n) s = .next (s.setLp s.cur { lp with
        eax := ⟨(lp.cfg.leaf04.at n).eax, true⟩
        ebx := ⟨(lp.cfg.leaf04.at n).ebx, true⟩
        ecx := ⟨(lp.cfg.leaf04.at n).ecx, true⟩
        edx := ⟨(lp.cfg.leaf04.at n).edx, true⟩ }))

/-- Leaf 18H, where the effective maximum reaches it: the four words of the sub-leaf (43 R190); where it
does not, the query is refused, whatever the registers hold (40 R100). -/
def Obligations.Leaf18Result : Prop :=
  ∀ (s : State) (lp : Lp) (n : Word), s.lps[s.cur]? = some lp →
    (lp.effectiveMaxLeaf s.limitedMaxLeaf < 0x18 → exec (.cpuid18 n) s = .refused .leafAboveMaximum) ∧
    (0x18 ≤ lp.effectiveMaxLeaf s.limitedMaxLeaf →
      exec (.cpuid18 n) s = .next (s.setLp s.cur { lp with
        eax := ⟨(lp.cfg.leaf18.at n).eax, true⟩
        ebx := ⟨(lp.cfg.leaf18.at n).ebx, true⟩
        ecx := ⟨(lp.cfg.leaf18.at n).ecx, true⟩
        edx := ⟨(lp.cfg.leaf18.at n).edx, true⟩ }))

/-- What an extended leaf that is implemented returns for sub-leaf `n` (41 R130): EAX and EBX of the
table, ECX[7:0] the low byte of `n`, ECX[31:8] of the table, EDX the x2APIC ID. -/
def Sys2Proof.Machine.isExtendedResult (t : SubleafTable) (x2apicId n : Word) (w : Words) : Prop :=
  w.eax = (t.at n).eax ∧ w.ebx = (t.at n).ebx ∧ w.subleafEcho = n.setWidth 8 ∧
  w.ecx.extractLsb' 8 24 = (t.at n).ecx.extractLsb' 8 24 ∧ w.edx = x2apicId

/-- Leaf 1FH, implemented and reached by the effective maximum (41 R130); where the effective maximum does
not reach it the query is refused, whatever the registers hold (40 R100). -/
def Obligations.Leaf1FResult : Prop :=
  ∀ (s : State) (lp : Lp) (n : Word), s.lps[s.cur]? = some lp →
    (lp.effectiveMaxLeaf s.limitedMaxLeaf < 0x1F →
      exec (.cpuid1F n) s = .refused .leafAboveMaximum) ∧
    (0x1F ≤ lp.effectiveMaxLeaf s.limitedMaxLeaf → lp.cfg.leaf1F.implemented = true →
      ∃ w : Words, exec (.cpuid1F n) s = .next (s.setLp s.cur { lp with
          eax := ⟨w.eax, true⟩, ebx := ⟨w.ebx, true⟩, ecx := ⟨w.ecx, true⟩, edx := ⟨w.edx, true⟩ }) ∧
        isExtendedResult lp.cfg.leaf1F lp.cfg.x2apicId n w)

/-- Leaf 0BH, implemented and reached by the effective maximum (41 R138); where the effective maximum does
not reach it the query is refused, whatever the registers hold (40 R100). -/
def Obligations.Leaf0BResult : Prop :=
  ∀ (s : State) (lp : Lp) (n : Word), s.lps[s.cur]? = some lp →
    (lp.effectiveMaxLeaf s.limitedMaxLeaf < 0x0B →
      exec (.cpuid0B n) s = .refused .leafAboveMaximum) ∧
    (0x0B ≤ lp.effectiveMaxLeaf s.limitedMaxLeaf → lp.cfg.leaf0B.implemented = true →
      ∃ w : Words, exec (.cpuid0B n) s = .next (s.setLp s.cur { lp with
          eax := ⟨w.eax, true⟩, ebx := ⟨w.ebx, true⟩, ecx := ⟨w.ecx, true⟩, edx := ⟨w.edx, true⟩ }) ∧
        isExtendedResult lp.cfg.leaf0B lp.cfg.x2apicId n w)

/-- An extended leaf the effective maximum reaches but that is not implemented completes at every
sub-leaf with EBX 0 and the configuration's words elsewhere (30 R85, 92 D35). -/
def Obligations.AbsentExtendedLeafResult : Prop :=
  ∀ (s : State) (lp : Lp) (n : Word), s.lps[s.cur]? = some lp →
    (0x1F ≤ lp.effectiveMaxLeaf s.limitedMaxLeaf → lp.cfg.leaf1F.implemented = false →
      exec (.cpuid1F n) s =
        .next (s.setLp s.cur (lp.withResults { lp.cfg.leaf1F.at n with ebx := 0 }))) ∧
    (0x0B ≤ lp.effectiveMaxLeaf s.limitedMaxLeaf → lp.cfg.leaf0B.implemented = false →
      exec (.cpuid0B n) s =
        .next (s.setLp s.cur (lp.withResults { lp.cfg.leaf0B.at n with ebx := 0 })))

/-- What an invalid sub-leaf `n` of an extended leaf returns (30 R81). -/
def Sys2Proof.Machine.isInvalidExtendedResult (x2apicId n : Word) (w : Words) : Prop :=
  w.eax = 0 ∧ w.ebx = 0 ∧ w.domainType = 0 ∧ w.subleafEcho = n.setWidth 8 ∧ w.edx = x2apicId

/-- An invalid sub-leaf is no error (30 R81). Leaf 04H returns four zeros after its Null entry. Leaf 18H
returns four zeros beyond its maximum and at a hole, a sub-leaf above 0 of Null type (43 R192); at
sub-leaf 0 of Null type it returns MAX_SUBLEAF in EAX and zeros in the others (43 R193, 92 D37, a choice
of the spec). Leaves 1FH and 0BH, from their first sub-leaf of domain type 0 on, return 0 in EAX and EBX,
domain type 0, the echo of the input and the x2APIC ID. -/
def Obligations.InvalidSubleavesReturnZeros : Prop :=
  ∀ (s : State) (lp : Lp) (m n : Word), s.lps[s.cur]? = some lp →
    LpConfigWf s.domainTypes s.limitedMaxLeaf lp.cfg →
    (4 ≤ lp.effectiveMaxLeaf s.limitedMaxLeaf → m < n → (lp.cfg.leaf04.at m).cacheType = 0 →
      exec (.cpuid04 n) s = .next (s.setLp s.cur (lp.withResults ⟨0, 0, 0, 0⟩))) ∧
    (0x18 ≤ lp.effectiveMaxLeaf s.limitedMaxLeaf →
      (n ≠ 0 → ((lp.cfg.leaf18.at 0).maxSubleaf < n ∨ (lp.cfg.leaf18.at n).tcType = 0) →
        exec (.cpuid18 n) s = .next (s.setLp s.cur (lp.withResults ⟨0, 0, 0, 0⟩))) ∧
      ((lp.cfg.leaf18.at 0).tcType = 0 →
        exec (.cpuid18 0) s =
          .next (s.setLp s.cur (lp.withResults ⟨(lp.cfg.leaf18.at 0).maxSubleaf, 0, 0, 0⟩)))) ∧
    (0x1F ≤ lp.effectiveMaxLeaf s.limitedMaxLeaf → lp.cfg.leaf1F.implemented = true →
      m ≤ n → (lp.cfg.leaf1F.at m).domainType = 0 →
      ∃ w : Words, exec (.cpuid1F n) s = .next (s.setLp s.cur (lp.withResults w)) ∧
        isInvalidExtendedResult lp.cfg.x2apicId n w) ∧
    (0x0B ≤ lp.effectiveMaxLeaf s.limitedMaxLeaf → lp.cfg.leaf0B.implemented = true →
      m ≤ n → (lp.cfg.leaf0B.at m).domainType = 0 →
      ∃ w : Words, exec (.cpuid0B n) s = .next (s.setLp s.cur (lp.withResults w)) ∧
        isInvalidExtendedResult lp.cfg.x2apicId n w)

/-- The maximum basic leaf (40 R104): LIMITED_MAX_LEAF, below 4, while the limit bit is 1; the table's
value while it is 0; a processor without the bit is never limited; and in a well-formed configuration
limiting never raises the maximum. -/
def Obligations.EffectiveMaximumLeaf : Prop :=
  ∀ (lp : Lp) (limited : Fin 4),
    (lp.limitBit = true → lp.effectiveMaxLeaf limited = BitVec.ofNat 32 limited.val ∧
      lp.effectiveMaxLeaf limited < 4) ∧
    (lp.limitBit = false → lp.effectiveMaxLeaf limited = lp.cfg.leaf00.eax) ∧
    (lp.cfg.hasLimitBit = false → lp.limitBit = false) ∧
    (∀ dt, LpConfigWf dt limited lp.cfg →
      lp.effectiveMaxLeaf limited ≤ lp.cfg.leaf00.eax)

/-- What a CPUID instruction leaves unchanged, when it completes: every other logical processor, this
one's configuration and MSR, and every other field of the state; and what it leaves behind: four
registers that hold values (10 R20, R22). No flag exists (10 R35) and no memory (20 R55). -/
def Obligations.CpuidFrame : Prop :=
  ∀ (s t : State) (i : Instr), isCpuid i = true → exec i s = .next t →
    (∃ lp lp' : Lp, s.lps[s.cur]? = some lp ∧ t.lps[s.cur]? = some lp' ∧
      lp'.cfg = lp.cfg ∧ lp'.miscEnables = lp.miscEnables ∧
      lp'.eax.holds = true ∧ lp'.ebx.holds = true ∧ lp'.ecx.holds = true ∧
      lp'.edx.holds = true) ∧
    (∀ k, k ≠ s.cur → t.lps[k]? = s.lps[k]?) ∧ t.lps.length = s.lps.length ∧
    t.limitedMaxLeaf = s.limitedMaxLeaf ∧ t.domainTypes = s.domainTypes ∧ t.cur = s.cur ∧
    t.layer = s.layer ∧ t.queue = s.queue ∧ t.freeCount = s.freeCount ∧ t.readBit = s.readBit ∧
    t.vars = s.vars

/-- A query has no side effect on the leaf space (20 R51): made again, it returns the same four words,
so the state after the second is the state after the first. -/
def Obligations.QueryTwiceSameWords : Prop :=
  ∀ (s t : State) (L : Leaf) (n : Word),
    exec (rowOf L n) s = .next t → exec (rowOf L n) t = .next t

/-- Every layer may execute CPUID (60 R247): the layer of the agent plays no part. -/
def Obligations.CpuidInEveryLayer : Prop :=
  ∀ (s t : State) (i : Instr) (l : Layer), isCpuid i = true → exec i s = .next t →
    exec i { s with layer := l } = .next { t with layer := l }

/-! ### The limit bit -/

/-- The abstract MSR steps (40 R112): the write sets bit 22 and changes no other bit of the MSR and
nothing else; the read gives the software's variable the bit and changes nothing else; after writing
0 the effective maximum leaf is the table's. A processor without the bit keeps its MSR (R104;
notes/assumptions/13). The variable's place in the state is the model's (notes/assumptions/10). -/
def Obligations.LimitBitSteps : Prop :=
  ∀ (s : State) (lp : Lp), s.lps[s.cur]? = some lp → s.layer ≠ .application →
    (∀ v : Bool, ∃ m : BitVec 64,
      exec (.wrmsr .limitBit v) s = .next (s.setLp s.cur { lp with miscEnables := m }) ∧
      (∀ j, j ≠ 22 → m.getLsbD j = lp.miscEnables.getLsbD j) ∧
      (lp.cfg.hasLimitBit = true → m.getLsbD 22 = v) ∧
      (lp.cfg.hasLimitBit = false → m = lp.miscEnables) ∧
      (v = false → ({ lp with miscEnables := m } : Lp).effectiveMaxLeaf s.limitedMaxLeaf =
        lp.cfg.leaf00.eax)) ∧
    exec (.rdmsr .limitBit) s = .next { s with readBit := lp.limitBit } ∧
    (lp.cfg.hasLimitBit = true → lp.limitBit = lp.miscEnables.getLsbD 22)

/-- Clearing the bit restores full reporting (40 R112, 70 R288): the query of leaf 00H that follows
returns the table's maximum leaf. -/
def Obligations.ClearingRestoresFullReporting : Prop :=
  ∀ (s : State) (lp : Lp), s.lps[s.cur]? = some lp → s.layer ≠ .application →
    ∃ t u lp', exec (.wrmsr .limitBit false) s = .next t ∧ exec .cpuid00 t = .next u ∧
      u.lps[s.cur]? = some lp' ∧ lp'.eax = Reg.of lp.cfg.leaf00.maxBasicLeaf

/-- Who may use the limit bit (60 R248, which is 92 D33's choice): BIOS and OS agents; an application is
refused. That the steps complete on a processor without the bit too is DEDUCED (notes/assumptions/13). -/
def Obligations.LimitBitPrivilege : Prop :=
  ∀ (s : State) (lp : Lp) (v : Bool), s.lps[s.cur]? = some lp →
    ((s.layer = .bios ∨ s.layer = .os) →
      (∃ t, exec (.wrmsr .limitBit v) s = .next t) ∧ ∃ t, exec (.rdmsr .limitBit) s = .next t) ∧
    (s.layer = .application →
      exec (.wrmsr .limitBit v) s = .refused .msrAccessWithoutPrivilege ∧
      exec (.rdmsr .limitBit) s = .refused .msrAccessWithoutPrivilege)

/-- What the MSR steps leave unchanged, when they complete: all four registers and the configuration
of every logical processor, every other logical processor's MSR, and the rest of the state. -/
def Obligations.LimitBitFrame : Prop :=
  ∀ (s t : State) (i : Instr), (i = .rdmsr .limitBit ∨ ∃ v, i = .wrmsr .limitBit v) →
    exec i s = .next t →
    (∃ lp m, s.lps[s.cur]? = some lp ∧ t.lps[s.cur]? = some { lp with miscEnables := m } ∧
      (i = .rdmsr .limitBit → m = lp.miscEnables) ∧ (i ≠ .rdmsr .limitBit → t.readBit = s.readBit)) ∧
    (∀ k, k ≠ s.cur → t.lps[k]? = s.lps[k]?) ∧ t.lps.length = s.lps.length ∧
    t.limitedMaxLeaf = s.limitedMaxLeaf ∧ t.domainTypes = s.domainTypes ∧ t.cur = s.cur ∧
    t.layer = s.layer ∧ t.queue = s.queue ∧ t.freeCount = s.freeCount ∧ t.vars = s.vars

/-- The instructions named but not defined are refused (30 R84), with the reason of 60 R241: the four
cache-maintenance instructions in every form, and WRMSR and RDMSR for any use but the limit bit. The tag
that stands for another use, and the operand fields, are the model's choice (notes/assumptions/5), and
so is the refusal of another use by that reason (notes/assumptions/16). -/
def Obligations.NamedOnlyInstructionsRefused : Prop :=
  ∀ (s : State) (m : BitVec 2) (rm : BitVec 3) (tag : Byte) (v : Bool),
    exec .wbinvd s = .refused .unmodelledInstruction ∧
    exec .invd s = .refused .unmodelledInstruction ∧
    exec (.clflush m rm) s = .refused .unmodelledInstruction ∧
    exec (.clflushopt m rm) s = .refused .unmodelledInstruction ∧
    exec (.wrmsr (.otherUse tag) v) s = .refused .unmodelledInstruction ∧
    exec (.rdmsr (.otherUse tag)) s = .refused .unmodelledInstruction

/-! ### The machine as a whole -/

/-- The start of a run on any platform (70 R272 and 92 D17, a choice of the spec; 10 R38): every
configured logical processor exists with its IDs and table, no register holds a value, and the limit bit,
where there is one (notes/assumptions/13), is the boot parameter. That no step is pending is the model's
choice (notes/assumptions/11). -/
def Obligations.StartOfRun : Prop :=
  ∀ p : Platform, (State.boot p).lps.map Lp.cfg = p.lps ∧
    (∀ lp ∈ (State.boot p).lps, lp.eax.read = none ∧ lp.ebx.read = none ∧ lp.ecx.read = none ∧
      lp.edx.read = none ∧ (lp.cfg.hasLimitBit = true → lp.limitBit = lp.cfg.limitAtBoot)) ∧
    (State.boot p).limitedMaxLeaf = p.limitedMaxLeaf ∧
    (State.boot p).domainTypes = p.domainTypes ∧ (State.boot p).queue = []

/-- The invariant is kept by every step: the platform stays well formed, the registers hold values
only as CPUID and the register lines allow, the limit bit stays 0 where it does not exist, and every
step stays on a logical processor of the platform. -/
def Obligations.StepKeepsInvariant : Prop :=
  ∀ s t : State, Inv s → step s = .next t → Inv t

/-- The invariant holds at the start of a run on every well-formed platform, State.reset's among them.
That the reset platform is well formed is the model's choice of platform (notes/assumptions/2). -/
def Obligations.InvariantAtReset : Prop :=
  Inv State.reset ∧
  ∀ p : Platform, PlatformWf p.lps p.limitedMaxLeaf p.domainTypes → Inv (State.boot p)

/-- No step changes the configuration (10 R29, 70 R270): the IDs, the CPUID tables, LPS, the limited
maximum leaf and the Domain Type values are constant for the whole of a run. -/
def Obligations.ConfigurationConstant : Prop :=
  ∀ (k : Nat) (s t : State), Core.run core k s = .next t →
    t.lps.map Lp.cfg = s.lps.map Lp.cfg ∧ t.limitedMaxLeaf = s.limitedMaxLeaf ∧
    t.domainTypes = s.domainTypes

/-- A step acts on the logical processor it runs on and no other (60 R254), and that is the one it is
bound to, if it is bound (60 R250). -/
def Obligations.StepActsOnOneProcessor : Prop :=
  ∀ (s t : State) (p : Pending) (rest : List Pending), s.queue = p :: rest → step s = .next t →
    t.cur < s.lps.length ∧ (∀ k, p.on = some k → t.cur = k) ∧
    (∀ k, k ≠ t.cur → t.lps[k]? = s.lps[k]?) ∧ t.queue = rest

/-- Only a write of the limit bit by the BIOS or the OS changes an MSR, and only its bit 22 (60 R249,
40 R112). -/
def Obligations.OnlyPrivilegedWriteChangesMsr : Prop :=
  ∀ (s t : State) (k : Nat) (lp lp' : Lp), step s = .next t →
    s.lps[k]? = some lp → t.lps[k]? = some lp' → lp'.miscEnables ≠ lp.miscEnables →
    t.layer ≠ .application ∧ t.cur = k ∧
    (∀ j, j ≠ 22 → lp'.miscEnables.getLsbD j = lp.miscEnables.getLsbD j) ∧
    ∃ p rest c v, s.queue = p :: rest ∧ p.line = .code c ∧ decode c = .ok (.wrmsr .limitBit v)

/-- A logical processor learns nothing of another (40 R101): what an instruction does on the current
one depends on that one, the platform's limited maximum leaf and the agent's layer alone. -/
def Obligations.NoProcessorReadsAnother : Prop :=
  ∀ (s s' t : State) (i : Instr),
    s'.lps[s'.cur]? = s.lps[s.cur]? → s'.limitedMaxLeaf = s.limitedMaxLeaf → s'.layer = s.layer →
    exec i s = .next t →
    ∃ t', exec i s' = .next t' ∧ t'.lps[s'.cur]? = t.lps[s.cur]? ∧
      ((∃ x, i = .rdmsr x) → t'.readBit = t.readBit)

/-- Steps on different logical processors commute (20 R61, 92 D14): in either order both complete, and
every logical processor ends the same. -/
def Obligations.DifferentProcessorsCommute : Prop :=
  ∀ (s s1 s2 : State) (i j : Instr) (k m : Nat) (a b : Layer), k ≠ m →
    exec i { s with cur := k, layer := a } = .next s1 →
    exec j { s1 with cur := m, layer := b } = .next s2 →
    ∃ t1 t2, exec j { s with cur := m, layer := b } = .next t1 ∧
      exec i { t1 with cur := k, layer := a } = .next t2 ∧ t2.lps = s2.lps

/-- `run_on` (60 R250, 30 R87): the three lines that set EAX and ECX and execute CPUID, run on logical
processor `k`, leave the words of that leaf and sub-leaf in its registers and every other logical
processor as it was. -/
def Obligations.RunOnQuery : Prop :=
  ∀ (s : State) (k : Nat) (lp : Lp) (l : Layer) (L : Leaf) (n : Word), s.queue = [] →
    s.lps[k]? = some lp → L.selector ≤ lp.effectiveMaxLeaf s.limitedMaxLeaf →
    ∃ t, Core.run core 3
        (s.runOn k l [.setEax (.const L.selector), .setEcx (.const n), .code (encode .cpuid)]) = .next t ∧
      t.queue = [] ∧
      t.lps = s.lps.set k (lp.withResults (lp.leafWords s.limitedMaxLeaf L n))

/-- A step no `run_on` binds runs on one of LPS, and the next such step is given a fresh choice
(70 R278; the form of the choice is the model's, notes/assumptions/9). -/
def Obligations.UnboundStepRunsSomewhere : Prop :=
  ∀ (s : State) (p : Pending) (rest : List Pending), s.lps ≠ [] → p.on = none →
    (s.issue p rest).cur < s.lps.length ∧
    (s.issue p rest).cur = Config.freeLp s.freeCount % s.lps.length ∧
    (s.issue p rest).freeCount = s.freeCount + 1

/-! ### Rounding, masks and sub-IDs -/

/-- `P2` (00 R14): for 1 to 2^31 it is the least power of two that is not smaller. -/
def Obligations.RoundsUpToPowerOfTwo : Prop :=
  ∀ x : Word, 1 ≤ x → x ≤ 0x80000000 →
    ∃ k, k ≤ 31 ∧ (p2 x).toNat = 2 ^ k ∧ log2Of (p2 x) = k ∧ x ≤ p2 x ∧
      ∀ j, x.toNat ≤ 2 ^ j → 2 ^ k ≤ 2 ^ j

/-- The three masks of the three-domain view make up the ID (41 R160 to R163, R165): they are disjoint,
together they are all 32 bits, the mask of a core relative to the system is the last two, and the
three sub-IDs of any ID, each put back at its place, give that ID. -/
def Obligations.ThreeMasksMakeUpTheId : Prop :=
  ∀ lpShift coreShift : BitVec 5, lpShift ≤ coreShift →
    lpMask lpShift &&& coreMask lpShift coreShift = 0 ∧
    lpMask lpShift &&& packageMask coreShift = 0 ∧
    coreMask lpShift coreShift &&& packageMask coreShift = 0 ∧
    lpMask lpShift ||| coreMask lpShift coreShift ||| packageMask coreShift = 0xFFFFFFFF ∧
    coreSystemMask lpShift = coreMask lpShift coreShift ||| packageMask coreShift ∧
    ∀ id : Word, packageId coreShift id <<< coreShift.toNat |||
      coreId lpShift coreShift id <<< lpShift.toNat ||| lpId lpShift id = id

/-- PACKAGE_ID is the ID shifted right by the core shift (41 R162). -/
def Obligations.PackageIdIsShiftedId : Prop :=
  ∀ (coreShift : BitVec 5) (id : Word),
    packageMask coreShift = ~~~(((1 : Word) <<< coreShift.toNat) - 1) ∧
    packageId coreShift id = (id &&& packageMask coreShift) >>> coreShift.toNat ∧
    packageId coreShift id = id >>> coreShift.toNat

/-- What the sub-IDs mean (40 R108): two logical processors are in the same package, or core, exactly
when their IDs agree after the shift, and they are the same exactly when all three sub-IDs agree. -/
def Obligations.SubIdsIdentify : Prop :=
  ∀ (lpShift coreShift : BitVec 5) (p q : Word), lpShift ≤ coreShift →
    (samePackage coreShift p q = true ↔ p >>> coreShift.toNat = q >>> coreShift.toNat) ∧
    (sameCore lpShift p q = true ↔ p >>> lpShift.toNat = q >>> lpShift.toNat) ∧
    (p = q ↔ lpId lpShift p = lpId lpShift q ∧
      coreId lpShift coreShift p = coreId lpShift coreShift q ∧
      packageId coreShift p = packageId coreShift q)

/-- A field of width `w` holds `2^w` sub-ID values (40 R107): a sub-ID is below that, and every value
below it is the sub-ID of some ID. -/
def Obligations.WidthReservesSubIds : Prop :=
  ∀ lower shift : BitVec 5, lower ≤ shift →
    (∀ id : Word, (subId lower shift id).toNat < 2 ^ (shift.toNat - lower.toNat)) ∧
    ∀ v : Nat, v < 2 ^ (shift.toNat - lower.toNat) → ∃ id : Word, (subId lower shift id).toNat = v

/-! ### System topology -/

/-- The three-domain extraction on a well-formed leaf (41 R150): the shift of sub-leaf 0 and the shift
of the last valid sub-leaf. -/
def Obligations.ThreeDomainShiftsOfWellFormed : Prop :=
  ∀ (dt : DomainTypes) (q : Word → Words) (valid : Nat), ExtendedWf dt q valid →
    threeDomainShifts dt q = ((q 0).shift, (q (BitVec.ofNat 32 (valid - 1))).shift)

/-- With KNOWN the logical-processor and core domains, the extraction for more domains equals the
three-domain one (41 R152). -/
def Obligations.TwoKnownDomainsGiveThreeDomainView : Prop :=
  ∀ (dt : DomainTypes) (q : Word → Words) (valid : Nat), ExtendedWf dt q valid →
    (nDomainShifts dt [dt.lp, dt.core] q).shift =
      [(dt.lp, (threeDomainShifts dt q).1), (dt.core, (threeDomainShifts dt q).2)] ∧
    (nDomainShifts dt [dt.lp, dt.core] q).lower =
      [(dt.lp, 0), (dt.core, (threeDomainShifts dt q).1)] ∧
    (nDomainShifts dt [dt.lp, dt.core] q).coreShift = (threeDomainShifts dt q).2 ∧
    (nDomainShifts dt [dt.lp, dt.core] q).trueCoreShift = some (threeDomainShifts dt q).2

/-- Core_Shift of the extraction for more domains is the three-domain Core_Shift whatever the software
knows (41 R153): the package field begins at the same bit in every view. Where KNOWN is as 00 R9 has it,
the core domain has a field of its own: TrueCore_Shift is there, between the shift of sub-leaf 1 and
Core_Shift, and the field's lower edge is Logical_Processor_Shift (41 R152). -/
def Obligations.CoreShiftSameForAllKnown : Prop :=
  ∀ (dt : DomainTypes) (known : List Byte) (q : Word → Words) (valid : Nat),
    ExtendedWf dt q valid →
    (nDomainShifts dt known q).coreShift = (threeDomainShifts dt q).2 ∧
    (KnownWf dt known →
      ∃ v, (nDomainShifts dt known q).trueCoreShift = some v ∧ (q 1).shift ≤ v ∧
        v ≤ (nDomainShifts dt known q).coreShift ∧
        (nDomainShifts dt known q).lower.value dt.core = some (threeDomainShifts dt q).1)

/-- The fields of the known enumerated domains make up the bits below the package field (41 R152, R154,
R164): unknown domains are absorbed and leave no gap and no overlap. -/
def Obligations.KnownDomainFieldsLeaveNoGap : Prop :=
  ∀ (dt : DomainTypes) (known : List Byte) (q : Word → Words) (valid : Nat),
    ExtendedWf dt q valid →
    let r := nDomainShifts dt known q
    r.shift.map Prod.fst = r.lower.map Prod.fst ∧
    let masks := List.zipWith (fun hi lo => domainMask lo.2 hi.2) r.shift r.lower
    masks.foldr (· ||| ·) 0 = lowMask r.coreShift ∧
    masks.Pairwise fun a b => a &&& b = 0

/-- Where leaf 0BH agrees with leaf 1FH (41 R139), the three-domain extraction gives the same shifts on
either. -/
def Obligations.AgreeingLeavesGiveSameShifts : Prop :=
  ∀ (dt : DomainTypes) (q r : Word → Words) (valid : Nat), ExtendedWf dt q 2 →
    ExtendedWf dt r valid → Leaf0BAgrees q r valid →
    threeDomainShifts dt q = threeDomainShifts dt r

/-- With uniform shifts (10 R30), the shifts computed on one logical processor are those of every
other, so its masks may be used across all IDs; on leaf 1FH and on leaf 0BH. -/
def Obligations.UniformShiftsOnEveryProcessor : Prop :=
  ∀ (dt : DomainTypes) (limited : Fin 4) (cs : List LpConfig) (c d : LpConfig),
    PlatformWf cs limited dt → UniformShifts cs → c ∈ cs → d ∈ cs →
    (reports c .l1F → reports d .l1F → c.leaf1F.implemented = true → d.leaf1F.implemented = true →
      threeDomainShifts dt (extendedWords c.leaf1F c.x2apicId) =
        threeDomainShifts dt (extendedWords d.leaf1F d.x2apicId)) ∧
    (reports c .l0B → reports d .l0B → c.leaf0B.implemented = true → d.leaf0B.implemented = true →
      threeDomainShifts dt (extendedWords c.leaf0B c.x2apicId) =
        threeDomainShifts dt (extendedWords d.leaf0B d.x2apicId))

/-- The choice of method (40 R111, whose legacy split the spec derives and whose last line is 92 D16, a
choice of the spec): leaf 1FH where it exists, then leaf 0BH, then the legacy leaves by the effective
maximum, and a refusal where that is 0; existence is tested on EBX of sub-leaf 0 (40 R110). -/
def Obligations.MethodPreference : Prop :=
  ∀ (lp : Lp) (limited : Fin 4),
    (lp.leafExists limited .l1F = true ↔
      0x1F ≤ lp.effectiveMaxLeaf limited ∧ (lp.leafWords limited .l1F 0).ebx ≠ 0) ∧
    (lp.leafExists limited .l0B = true ↔
      0x0B ≤ lp.effectiveMaxLeaf limited ∧ (lp.leafWords limited .l0B 0).ebx ≠ 0) ∧
    (lp.hasX2apicId limited = true ↔
      lp.leafExists limited .l1F = true ∨ lp.leafExists limited .l0B = true) ∧
    (lp.leafExists limited .l1F = true → lp.chooseMethod limited = .ok .leaf1F) ∧
    (lp.leafExists limited .l1F = false → lp.leafExists limited .l0B = true →
      lp.chooseMethod limited = .ok .leaf0B) ∧
    (lp.leafExists limited .l1F = false → lp.leafExists limited .l0B = false →
      (4 ≤ lp.effectiveMaxLeaf limited → lp.chooseMethod limited = .ok .legacy0104) ∧
      (1 ≤ lp.effectiveMaxLeaf limited → lp.effectiveMaxLeaf limited < 4 →
        lp.chooseMethod limited = .ok .legacy01Only) ∧
      (lp.effectiveMaxLeaf limited = 0 → lp.chooseMethod limited = .error .noCpuidApicId))

/-- While the limit bit is 1 no extended leaf exists, and the choice of method, with the advice to clear
the bit, is leaf 01H alone (40 R111, 70 R284), or, where the limited maximum leaf is 0, the refusal
NoCpuidApicId of R111's last line (92 D16, a choice of the spec). -/
def Obligations.LimitedReportingForcesLegacy : Prop :=
  ∀ (lp : Lp) (limited : Fin 4), lp.limitBit = true →
    lp.hasX2apicId limited = false ∧ lp.advisesRestore limited = true ∧
    lp.chooseMethod limited =
      (if limited = 0 then .error .noCpuidApicId else .ok .legacy01Only)

/-- The ID of a logical processor (42 R182): the x2APIC ID where there is one, else the initial APIC ID,
zero-extended; and that is what software reads by CPUID, in EDX of an extended leaf that exists, else in
EBX[31:24] of leaf 01H. -/
def Obligations.QueriedIdIsTheId : Prop :=
  ∀ (lp : Lp) (limited : Fin 4) (dt : DomainTypes), LpConfigWf dt limited lp.cfg →
    1 ≤ lp.effectiveMaxLeaf limited →
    lp.id limited = (if lp.hasX2apicId limited = true then lp.cfg.x2apicId
      else lp.cfg.initialApicId.setWidth 32) ∧
    lp.queriedId limited = .ok (lp.id limited) ∧
    (lp.leafExists limited .l1F = true →
      (lp.leafWords limited .l1F 0).x2apicId = lp.id limited) ∧
    (lp.leafExists limited .l0B = true →
      (lp.leafWords limited .l0B 0).x2apicId = lp.id limited) ∧
    (lp.hasX2apicId limited = false →
      (lp.leafWords limited .l01 0).initialApicId.setWidth 32 = lp.id limited)

/-! ### Caches and TLBs -/

/-- `CachesOf` on a well-formed leaf 04H (42 R176): sub-leaves 0 to k-1, with what each returns. -/
def Obligations.CachesOfWellFormed : Prop :=
  ∀ (q : Word → Words) (k : Nat), CachesWf q k →
    cachesOf q = (List.range k).map fun n => (BitVec.ofNat 32 n, q (BitVec.ofNat 32 n))

/-- `CACHE_Mask` and `TLB_Mask` (42 R178, 43 R199): 0 to 12 low bits are clear, enough for the reserved
IDs and no more than the rounding needs, and all others are set. -/
def Obligations.SharingMasksClearLowBits : Prop :=
  ∀ r : Words,
    (∃ j, j ≤ 12 ∧ cacheMask r = ~~~(((1 : Word) <<< j) - 1) ∧
      r.maxLpSharing.toNat + 1 ≤ 2 ^ j ∧ (j ≠ 0 → 2 ^ (j - 1) < r.maxLpSharing.toNat + 1)) ∧
    ∃ j, j ≤ 12 ∧ tlbMask r = ~~~(((1 : Word) <<< j) - 1) ∧
      r.tcMaxLpSharing.toNat + 1 ≤ 2 ^ j ∧ (j ≠ 0 → 2 ^ (j - 1) < r.tcMaxLpSharing.toNat + 1)

/-- Sharing a cache (42 R181): another logical processor, with ID `b` and caches `bs`, shares the cache
`r` of `a` exactly when the masked IDs agree and one of its sub-leaves enumerates the same four
registers. So a logical processor shares its own caches; if it shares one with another, the other shares
it too; and sharing passes on. `r` is the cache's registers, among those of `a`. -/
def Obligations.CacheSharingIsEquivalence : Prop :=
  ∀ (r : Words) (a b c : Word) (as bs cs : List Entry),
    (sharesCache r a b bs = true ↔ cacheMask r &&& b = cacheMask r &&& a ∧
      ∃ n e, (n, e) ∈ bs ∧ e.eax = r.eax ∧ e.ebx = r.ebx ∧ e.ecx = r.ecx ∧ e.edx = r.edx) ∧
    ((∃ n, (n, r) ∈ as) →
      sharesCache r a a as = true ∧
      (sharesCache r a b bs = true → sharesCache r b a as = true) ∧
      (sharesCache r a b bs = true → sharesCache r b c cs = true → sharesCache r a c cs = true))

/-- `TlbsOf` (43 R197, R192, R194): exactly the sub-leaves from 0 to MAX_SUBLEAF inclusive whose type is
not Null, with no stop at an invalid one between. The skip of a Null type is the spec's derivation (R197). -/
def Obligations.TlbsOfEverySubleaf : Prop :=
  ∀ (q : Word → Words) (n : Word) (r : Words),
    (n, r) ∈ tlbsOf q ↔ n ≤ (q 0).maxSubleaf ∧ (q n).tcType ≠ 0 ∧ r = q n

/-- Sharing a translation structure (43 R203): another logical processor, with ID `b` and structures
`bs`, shares the structure `r` of `a` exactly when the masked IDs agree and one of its sub-leaves
enumerates the same EBX, ECX and EDX; EAX never decides, on either side; and a logical processor shares
its own structures, mutually. -/
def Obligations.TlbSharingIgnoresEax : Prop :=
  ∀ (r e : Words) (a b x y : Word) (n : Word) (as bs cs : List Entry),
    (sharesTlb r a b bs = true ↔ tlbMask r &&& b = tlbMask r &&& a ∧
      ∃ n e, (n, e) ∈ bs ∧ e.ebx = r.ebx ∧ e.ecx = r.ecx ∧ e.edx = r.edx) ∧
    sharesTlb { r with eax := x } a b bs = sharesTlb r a b bs ∧
    sharesTlb r a b (bs ++ (n, { e with eax := y }) :: cs) =
      sharesTlb r a b (bs ++ (n, e) :: cs) ∧
    ((n, r) ∈ as → sharesTlb r a a as = true ∧
      (sharesTlb r a b bs = true → sharesTlb r b a as = true))

/-! ### The legacy method and the analysis -/

/-- The legacy masks make up the 8-bit ID, and so do the three sub-IDs, each put back at its place (44
R223), for every value of the fields of leaves 01H and 04H; and the core mask is the core count's mask
in place (44 R222). -/
def Obligations.LegacyMasksMakeUpTheId : Prop :=
  ∀ (id maxLpIds : Byte) (htt : Bool) (core : Option (BitVec 6)) (m : LegacyMasks),
    masksOfCounts id (maxLpIdsPerPackage htt maxLpIds) (maxCoreIdsPerPackage core) = .ok m →
    m.id = id ∧ m.lpMask &&& m.coreMask = 0 ∧ m.lpMask &&& m.packageMask = 0 ∧
    m.coreMask &&& m.packageMask = 0 ∧ m.lpMask ||| m.coreMask ||| m.packageMask = 0xFF ∧
    m.coreMask = BitVec.ofNat 8 (maxCoreIdsPerPackage core - 1) <<< m.coreShift ∧
    m.packageId <<< m.packageShift ||| m.coreId <<< m.coreShift ||| m.lpId = id

/-- The legacy algorithm answers or refuses as the counts say (44 R217, R221: 92 D18, D19 and D21, choices
of the spec): more core IDs than logical-processor IDs are refused, and nothing else is; without HTT, or
with a zero field, and with a core count of 1, the whole ID is the package's; where leaves 01H and 04H
fit (44 R214; notes/assumptions/17 on a Null sub-leaf 0) it answers; so on a platform that keeps
WF_LEGACY it answers on every logical processor without an extended leaf whose leaf 01H is reported and
whose first count is valid. -/
def Obligations.LegacyRefusesMalformedCounts : Prop :=
  (∀ (id maxLpIds : Byte) (htt : Bool) (core : Option (BitVec 6)),
    (masksOfCounts id (maxLpIdsPerPackage htt maxLpIds) (maxCoreIdsPerPackage core) =
        .error .malformedLegacyCounts ↔
      maxLpIdsPerPackage htt maxLpIds < maxCoreIdsPerPackage core)) ∧
  (∀ (id maxLpIds : Byte) (htt : Bool) (core : Option (BitVec 6)),
    htt = false ∨ maxLpIds = 0 → maxCoreIdsPerPackage core = 1 →
    masksOfCounts id (maxLpIdsPerPackage htt maxLpIds) (maxCoreIdsPerPackage core) =
      .ok ⟨id, 0x00, 0x00, 0, 0xFF, 0⟩) ∧
  (∀ (id : Byte) (r1 r4 : Words), LegacyConsistent r1 r4 → r1.htt = true → r1.maxLpIds ≠ 0 →
    ∃ m, masksOfCounts id (maxLpIdsPerPackage r1.htt r1.maxLpIds)
      (maxCoreIdsPerPackage (coreIdsField r4)) = .ok m) ∧
  ∀ (cs : List LpConfig) (lp : Lp) (limited : Fin 4), WfLegacy cs → lp.cfg ∈ cs →
    ¬supportsX2apic lp.cfg → lp.cfg.leaf01.htt = true → lp.cfg.leaf01.maxLpIds ≠ 0 →
    1 ≤ lp.effectiveMaxLeaf limited → ∃ m, lp.legacyMasks limited = .ok m

/-- Counting on State.reset (45 R231): 2 packages, 16 cores, 32 logical processors, by the shifts
computed on its first logical processor. That the platform is this one is the model's choice
(notes/assumptions/2); the counts are those of 95 V-45-1. -/
def Obligations.ResetPlatformCounts : Prop :=
  ∃ lp, State.reset.lps[0]? = some lp ∧
    let ids := State.reset.lps.map fun p => p.id State.reset.limitedMaxLeaf
    let shifts := threeDomainShifts State.reset.domainTypes (lp.leafWords State.reset.limitedMaxLeaf .l1F)
    (maskedIds (packageMask shifts.2) ids).length = 2 ∧
    (maskedIds (coreSystemMask shifts.1) ids).length = 16 ∧ ids.length = 32
end

