-- ==== Sys2Proof/Laws/State.lean ====
section
/-! SUPPORT. One lemma per field per update of the state, all true by computation, so that no later
proof unfolds a record update. -/

namespace Sys2Proof.Machine

/-! ### Replacing one logical processor -/

@[simp] theorem setLp_lps (s : State) (k : Nat) (lp : Lp) : (s.setLp k lp).lps = s.lps.set k lp := rfl
@[simp] theorem setLp_limitedMaxLeaf (s : State) (k : Nat) (lp : Lp) :
    (s.setLp k lp).limitedMaxLeaf = s.limitedMaxLeaf := rfl
@[simp] theorem setLp_domainTypes (s : State) (k : Nat) (lp : Lp) :
    (s.setLp k lp).domainTypes = s.domainTypes := rfl
@[simp] theorem setLp_cur (s : State) (k : Nat) (lp : Lp) : (s.setLp k lp).cur = s.cur := rfl
@[simp] theorem setLp_layer (s : State) (k : Nat) (lp : Lp) : (s.setLp k lp).layer = s.layer := rfl
@[simp] theorem setLp_queue (s : State) (k : Nat) (lp : Lp) : (s.setLp k lp).queue = s.queue := rfl
@[simp] theorem setLp_freeCount (s : State) (k : Nat) (lp : Lp) :
    (s.setLp k lp).freeCount = s.freeCount := rfl
@[simp] theorem setLp_readBit (s : State) (k : Nat) (lp : Lp) :
    (s.setLp k lp).readBit = s.readBit := rfl
@[simp] theorem setLp_vars (s : State) (k : Nat) (lp : Lp) : (s.setLp k lp).vars = s.vars := rfl

/-! ### Issuing a step -/

@[simp] theorem issue_lps (s : State) (p : Pending) (r : List Pending) : (s.issue p r).lps = s.lps := rfl
@[simp] theorem issue_limitedMaxLeaf (s : State) (p : Pending) (r : List Pending) :
    (s.issue p r).limitedMaxLeaf = s.limitedMaxLeaf := rfl
@[simp] theorem issue_domainTypes (s : State) (p : Pending) (r : List Pending) :
    (s.issue p r).domainTypes = s.domainTypes := rfl
@[simp] theorem issue_cur (s : State) (p : Pending) (r : List Pending) :
    (s.issue p r).cur = s.lpOf p.on := rfl
@[simp] theorem issue_layer (s : State) (p : Pending) (r : List Pending) :
    (s.issue p r).layer = p.layer := rfl
@[simp] theorem issue_queue (s : State) (p : Pending) (r : List Pending) : (s.issue p r).queue = r := rfl
@[simp] theorem issue_readBit (s : State) (p : Pending) (r : List Pending) :
    (s.issue p r).readBit = s.readBit := rfl
@[simp] theorem issue_vars (s : State) (p : Pending) (r : List Pending) : (s.issue p r).vars = s.vars := rfl

/-! ### Issuing steps to the host -/

@[simp] theorem runOn_lps (s : State) (k : Nat) (l : Layer) (ls : List Line) :
    (s.runOn k l ls).lps = s.lps := rfl
@[simp] theorem runOn_queue (s : State) (k : Nat) (l : Layer) (ls : List Line) :
    (s.runOn k l ls).queue = s.queue ++ pendingLines (some k) l ls := rfl
@[simp] theorem runOn_vars (s : State) (k : Nat) (l : Layer) (ls : List Line) :
    (s.runOn k l ls).vars = s.vars := rfl
@[simp] theorem runOn_limitedMaxLeaf (s : State) (k : Nat) (l : Layer) (ls : List Line) :
    (s.runOn k l ls).limitedMaxLeaf = s.limitedMaxLeaf := rfl
@[simp] theorem runOn_domainTypes (s : State) (k : Nat) (l : Layer) (ls : List Line) :
    (s.runOn k l ls).domainTypes = s.domainTypes := rfl
@[simp] theorem runUnbound_lps (s : State) (l : Layer) (ls : List Line) :
    (s.runUnbound l ls).lps = s.lps := rfl
@[simp] theorem runUnbound_queue (s : State) (l : Layer) (ls : List Line) :
    (s.runUnbound l ls).queue = s.queue ++ pendingLines none l ls := rfl
@[simp] theorem withFetchWord_lps (s : State) (nbits w : Nat) :
    (s.withFetchWord nbits w).lps = s.lps := rfl
@[simp] theorem withFetchWord_queue (s : State) (nbits w : Nat) :
    (s.withFetchWord nbits w).queue = s.tableStep nbits w :: s.queue := rfl

/-! ### The start of a run -/

@[simp] theorem boot_lps (p : Platform) : (State.boot p).lps = p.lps.map Lp.boot := rfl
@[simp] theorem boot_limitedMaxLeaf (p : Platform) :
    (State.boot p).limitedMaxLeaf = p.limitedMaxLeaf := rfl
@[simp] theorem boot_domainTypes (p : Platform) : (State.boot p).domainTypes = p.domainTypes := rfl
@[simp] theorem boot_queue (p : Platform) : (State.boot p).queue = [] := rfl
@[simp] theorem boot_vars (p : Platform) : (State.boot p).vars = [] := rfl
@[simp] theorem lpBoot_cfg (c : LpConfig) : (Lp.boot c).cfg = c := rfl

/-! ### Registers -/

@[simp] theorem reg_of_bits (v : Word) : (Reg.of v).bits = v := rfl
@[simp] theorem reg_of_holds (v : Word) : (Reg.of v).holds = true := rfl
@[simp] theorem reg_of_read (v : Word) : (Reg.of v).read = some v := rfl
@[simp] theorem reg_empty_read : Reg.empty.read = none := rfl
@[simp] theorem reg_empty_holds : Reg.empty.holds = false := rfl

/-- A register that holds a value has it in an expression. -/
theorem regValue_of {s : State} {lp : Lp} {r : RegName} {v : Word} (h : lp.reg r = Reg.of v) :
    s.regValue lp r = v := by simp [State.regValue, h]

/-- A variable that has been kept has its value in an expression. -/
theorem varValue_of {s : State} {k : Nat} {v : Word} (h : s.vars[k]? = some v) :
    s.varValue k = v := by simp [State.varValue, h]

/-! ### Expressions -/

@[simp] theorem value_const (s : State) (lp : Lp) (v : Word) : s.value lp (.const v) = v := rfl
@[simp] theorem value_reg (s : State) (lp : Lp) (r : RegName) :
    s.value lp (.reg r) = s.regValue lp r := rfl
@[simp] theorem value_var (s : State) (lp : Lp) (k : Nat) : s.value lp (.var k) = s.varValue k := rfl
@[simp] theorem value_slice (s : State) (lp : Lp) (e : Expr) (lo len : Nat) :
    s.value lp (.slice e lo len) = sliceOf (s.value lp e) lo len := rfl
@[simp] theorem value_not (s : State) (lp : Lp) (e : Expr) :
    s.value lp (.not e) = ~~~s.value lp e := rfl
@[simp] theorem value_bin (s : State) (lp : Lp) (op : BinOp) (a b : Expr) :
    s.value lp (.bin op a b) = binValue op (s.value lp a) (s.value lp b) := rfl

/-- A register that holds nothing reads as nothing. -/
theorem reg_read_none {r : Reg} (h : r.holds = false) : r.read = none := by simp [Reg.read, h]

@[simp] theorem withResults_cfg (lp : Lp) (w : Words) : (lp.withResults w).cfg = lp.cfg := rfl
@[simp] theorem withResults_miscEnables (lp : Lp) (w : Words) :
    (lp.withResults w).miscEnables = lp.miscEnables := rfl
@[simp] theorem withResults_eax (lp : Lp) (w : Words) : (lp.withResults w).eax = Reg.of w.eax := rfl
@[simp] theorem withResults_ebx (lp : Lp) (w : Words) : (lp.withResults w).ebx = Reg.of w.ebx := rfl
@[simp] theorem withResults_ecx (lp : Lp) (w : Words) : (lp.withResults w).ecx = Reg.of w.ecx := rfl
@[simp] theorem withResults_edx (lp : Lp) (w : Words) : (lp.withResults w).edx = Reg.of w.edx := rfl
@[simp] theorem withResults_withResults (lp : Lp) (v w : Words) :
    (lp.withResults v).withResults w = lp.withResults w := rfl

/-! ### The limit bit -/

@[simp] theorem setLimitBit_cfg (lp : Lp) (v : Bool) : (lp.setLimitBit v).cfg = lp.cfg := by
  unfold Lp.setLimitBit; split <;> rfl
@[simp] theorem setLimitBit_eax (lp : Lp) (v : Bool) : (lp.setLimitBit v).eax = lp.eax := by
  unfold Lp.setLimitBit; split <;> rfl
@[simp] theorem setLimitBit_ebx (lp : Lp) (v : Bool) : (lp.setLimitBit v).ebx = lp.ebx := by
  unfold Lp.setLimitBit; split <;> rfl
@[simp] theorem setLimitBit_ecx (lp : Lp) (v : Bool) : (lp.setLimitBit v).ecx = lp.ecx := by
  unfold Lp.setLimitBit; split <;> rfl
@[simp] theorem setLimitBit_edx (lp : Lp) (v : Bool) : (lp.setLimitBit v).edx = lp.edx := by
  unfold Lp.setLimitBit; split <;> rfl

end Sys2Proof.Machine
end

