-- ==== Sys2Proof/Laws/Ops.lean ====
section
/-! SUPPORT. What each shared operation can do, said once; proofs cite these instead of unfolding. -/

namespace Sys2Proof.Machine

/-- A computation on the current logical processor runs where there is one. -/
theorem onCur_of {s : State} {lp : Lp} (h : s.lps[s.cur]? = some lp) (f : Lp → Result) :
    s.onCur f = f lp := by simp [State.onCur, h]

/-- A computation on the current logical processor that completes had one. -/
theorem onCur_next {s t : State} {f : Lp → Result} (h : s.onCur f = .next t) :
    ∃ lp, s.lps[s.cur]? = some lp ∧ f lp = .next t := by
  unfold State.onCur at h
  split at h
  · exact ⟨_, ‹_›, h⟩
  · cases h

/-- A leaf's selector selects it. -/
@[simp] theorem ofWord_selector (L : Leaf) : Leaf.ofWord L.selector = some L := by cases L <;> rfl

/-- Only a leaf's selector selects it. -/
theorem ofWord_eq_some {v : Word} {L : Leaf} (h : Leaf.ofWord v = some L) : v = L.selector := by
  unfold Leaf.ofWord at h
  split_ifs at h <;> · cases h; assumption

/-- A word that is no leaf's selector selects nothing. -/
theorem ofWord_eq_none {v : Word} (h : ∀ L : Leaf, v ≠ L.selector) : Leaf.ofWord v = none := by
  cases hv : Leaf.ofWord v with
  | none => rfl
  | some L => exact absurd (ofWord_eq_some hv) (h L)

/-- `CPUID(lp, L, n)` where the effective maximum reaches the leaf. -/
theorem lpCpuid_ok {lp : Lp} {lim : Fin 4} {L : Leaf} (n : Word)
    (h : L.selector ≤ lp.effectiveMaxLeaf lim) : lp.cpuid lim L n = .ok (lp.leafWords lim L n) := by
  simp [Lp.cpuid, BitVec.not_lt.mpr h]

/-- `CPUID(lp, L, n)` where it does not. -/
theorem lpCpuid_above {lp : Lp} {lim : Fin 4} {L : Leaf} (n : Word)
    (h : lp.effectiveMaxLeaf lim < L.selector) : lp.cpuid lim L n = .error .leafAboveMaximum := by
  simp [Lp.cpuid, h]

/-- What `CPUID(lp, L, n)` can answer. -/
theorem lpCpuid_eq_ok {lp : Lp} {lim : Fin 4} {L : Leaf} {n : Word} {w : Words}
    (h : lp.cpuid lim L n = .ok w) :
    L.selector ≤ lp.effectiveMaxLeaf lim ∧ w = lp.leafWords lim L n := by
  unfold Lp.cpuid at h
  split at h
  · cases h
  · exact ⟨BitVec.not_lt.mp ‹_›, (Except.ok.inj h).symm⟩

/-- A query that the effective maximum reaches. -/
theorem query_of {s : State} {lp : Lp} {L : Leaf} (n : Word) (hlp : s.lps[s.cur]? = some lp)
    (h : L.selector ≤ lp.effectiveMaxLeaf s.limitedMaxLeaf) :
    query L n s = .next (s.setLp s.cur (lp.withResults (lp.leafWords s.limitedMaxLeaf L n))) := by
  simp [query, onCur_of hlp, lpCpuid_ok n h]

/-- A query above the effective maximum. -/
theorem query_above {s : State} {lp : Lp} {L : Leaf} (n : Word) (hlp : s.lps[s.cur]? = some lp)
    (h : lp.effectiveMaxLeaf s.limitedMaxLeaf < L.selector) :
    query L n s = .refused .leafAboveMaximum := by
  simp [query, onCur_of hlp, lpCpuid_above n h]

/-- All that a completed query did. -/
theorem query_next {s t : State} {L : Leaf} {n : Word} (h : query L n s = .next t) :
    ∃ lp, s.lps[s.cur]? = some lp ∧ L.selector ≤ lp.effectiveMaxLeaf s.limitedMaxLeaf ∧
      t = s.setLp s.cur (lp.withResults (lp.leafWords s.limitedMaxLeaf L n)) := by
  obtain ⟨lp, hlp, h⟩ := onCur_next h
  split at h
  · obtain ⟨hmax, rfl⟩ := lpCpuid_eq_ok ‹_›
    cases h
    exact ⟨lp, hlp, hmax, rfl⟩
  · cases h

/-- All that a completed CPUID did: the query of the leaf and sub-leaf its registers held. -/
theorem execCpuid_next {s t : State} (h : execCpuid s = .next t) :
    ∃ L n, query L n s = .next t ∧ ∃ lp, s.lps[s.cur]? = some lp ∧ lp.eax.read = some L.selector ∧
      (usesSubleaf L = true → lp.ecx.read = some n) := by
  obtain ⟨lp, hlp, h⟩ := onCur_next h
  split at h
  · cases h
  split at h
  · cases h
  rename_i hr _ _ hL
  cases ofWord_eq_some hL
  split at h
  · split at h
    · cases h
    · exact ⟨_, _, h, lp, hlp, hr, fun _ => ‹_›⟩
  · exact ⟨_, 0, h, lp, hlp, hr, fun hu => absurd hu ‹_›⟩

/-- All that a completed write of the limit bit did. -/
theorem execWrmsr_next {s t : State} {x : MsrTarget} {v : Bool} (h : execWrmsr x v s = .next t) :
    x = .limitBit ∧ s.layer.mayAccessMsr = true ∧
      ∃ lp, s.lps[s.cur]? = some lp ∧ t = s.setLp s.cur (lp.setLimitBit v) := by
  unfold execWrmsr msrAccess at h
  split at h
  · cases h
  split at h
  · obtain ⟨lp, hlp, h⟩ := onCur_next h
    cases h
    exact ⟨rfl, ‹_›, lp, hlp, rfl⟩
  · cases h

/-- All that a completed read of the limit bit did. -/
theorem execRdmsr_next {s t : State} {x : MsrTarget} (h : execRdmsr x s = .next t) :
    x = .limitBit ∧ s.layer.mayAccessMsr = true ∧
      ∃ lp, s.lps[s.cur]? = some lp ∧ t = { s with readBit := lp.limitBit } := by
  unfold execRdmsr msrAccess at h
  split at h
  · cases h
  split at h
  · obtain ⟨lp, hlp, h⟩ := onCur_next h
    cases h
    exact ⟨rfl, ‹_›, lp, hlp, rfl⟩
  · cases h

/-- A completed instruction is a completed query, a write of the limit bit or a read of it. -/
theorem exec_next_cases {s t : State} {i : Instr} (h : exec i s = .next t) :
    (∃ L n, query L n s = .next t ∧ (∀ x v, i ≠ .wrmsr x v) ∧ ∀ x, i ≠ .rdmsr x) ∨
      (∃ x v, i = .wrmsr x v ∧ execWrmsr x v s = .next t) ∨
      ∃ x, i = .rdmsr x ∧ execRdmsr x s = .next t := by
  cases i with
  | cpuid =>
    obtain ⟨L, n, h, -⟩ := execCpuid_next h
    exact .inl ⟨L, n, h, by simp, by simp⟩
  | cpuid00 => exact .inl ⟨.l00, 0, h, by simp, by simp⟩
  | cpuid01 => exact .inl ⟨.l01, 0, h, by simp, by simp⟩
  | cpuid04 n => exact .inl ⟨.l04, n, h, by simp, by simp⟩
  | cpuid0B n => exact .inl ⟨.l0B, n, h, by simp, by simp⟩
  | cpuid18 n => exact .inl ⟨.l18, n, h, by simp, by simp⟩
  | cpuid1F n => exact .inl ⟨.l1F, n, h, by simp, by simp⟩
  | wrmsr x v => exact .inr (.inl ⟨x, v, rfl, h⟩)
  | rdmsr x => exact .inr (.inr ⟨x, rfl, h⟩)
  | wbinvd => cases h
  | invd => cases h
  | clflush m rm => cases h
  | clflushopt m rm => cases h

/-- All that a completed instruction can have done: a query on the current logical processor, a write
of its limit bit, or a read of it; both of the latter by an agent that may. -/
theorem exec_next {s t : State} {i : Instr} (h : exec i s = .next t) :
    ∃ lp, s.lps[s.cur]? = some lp ∧
      ((∃ L n, L.selector ≤ lp.effectiveMaxLeaf s.limitedMaxLeaf ∧
          t = s.setLp s.cur (lp.withResults (lp.leafWords s.limitedMaxLeaf L n)) ∧
          (∀ x v, i ≠ .wrmsr x v) ∧ ∀ x, i ≠ .rdmsr x) ∨
        (∃ v, i = .wrmsr .limitBit v ∧ s.layer.mayAccessMsr = true ∧
          t = s.setLp s.cur (lp.setLimitBit v)) ∨
        (i = .rdmsr .limitBit ∧ s.layer.mayAccessMsr = true ∧
          t = { s with readBit := lp.limitBit })) := by
  obtain ⟨L, n, h, hi⟩ | ⟨x, v, rfl, h⟩ | ⟨x, rfl, h⟩ := exec_next_cases h
  · obtain ⟨lp, hlp, hmax, rfl⟩ := query_next h
    exact ⟨lp, hlp, .inl ⟨L, n, hmax, rfl, hi⟩⟩
  · obtain ⟨rfl, hl, lp, hlp, rfl⟩ := execWrmsr_next h
    exact ⟨lp, hlp, .inr (.inl ⟨v, rfl, hl, rfl⟩)⟩
  · obtain ⟨rfl, hl, lp, hlp, rfl⟩ := execRdmsr_next h
    exact ⟨lp, hlp, .inr (.inr ⟨rfl, hl, rfl⟩)⟩

/-- All that a completed line did: a register set, a value kept, or a completed instruction. -/
theorem runLine_next {s t : State} {l : Line} (h : runLine l s = .next t) :
    (∃ e lp, l = .setEax e ∧ s.lps[s.cur]? = some lp ∧
        t = s.setLp s.cur { lp with eax := Reg.of (s.value lp e) }) ∨
      (∃ e lp, l = .setEcx e ∧ s.lps[s.cur]? = some lp ∧
        t = s.setLp s.cur { lp with ecx := Reg.of (s.value lp e) }) ∨
      (∃ e lp, l = .keep e ∧ s.lps[s.cur]? = some lp ∧
        t = { s with vars := s.vars ++ [s.value lp e] }) ∨
      ∃ c i, l = .code c ∧ decode c = .ok i ∧ exec i s = .next t := by
  cases l with
  | setEax e =>
    obtain ⟨lp, hlp, h⟩ := onCur_next h
    cases h
    exact .inl ⟨e, lp, rfl, hlp, rfl⟩
  | setEcx e =>
    obtain ⟨lp, hlp, h⟩ := onCur_next h
    cases h
    exact .inr (.inl ⟨e, lp, rfl, hlp, rfl⟩)
  | keep e =>
    obtain ⟨lp, hlp, h⟩ := onCur_next h
    cases h
    exact .inr (.inr (.inl ⟨e, lp, rfl, hlp, rfl⟩))
  | code c =>
    simp only [runLine] at h
    split at h
    · exact .inr (.inr (.inr ⟨c, _, rfl, ‹_›, h⟩))
    · cases h

/-- All that a completed step did: it ran the line at the head of the pending list. -/
theorem step_next {s t : State} (h : step s = .next t) :
    ∃ p rest, s.queue = p :: rest ∧ runLine p.line (s.issue p rest) = .next t := by
  unfold step at h
  split at h
  · cases h
  · exact ⟨_, _, ‹_›, h⟩

/-- Putting a logical processor back where it is changes nothing. -/
theorem set_same {lps : List Lp} {k : Nat} {lp : Lp} (h : lps[k]? = some lp) : lps.set k lp = lps := by
  obtain ⟨hk, rfl⟩ := List.getElem?_eq_some_iff.mp h
  exact List.set_getElem_self hk

/-- What a completed instruction keeps: everything but the current logical processor and the software's
variable. -/
theorem exec_frame {s t : State} {i : Instr} (h : exec i s = .next t) :
    ∃ lp lp', s.lps[s.cur]? = some lp ∧ t.lps = s.lps.set s.cur lp' ∧ lp'.cfg = lp.cfg ∧
      t.limitedMaxLeaf = s.limitedMaxLeaf ∧ t.domainTypes = s.domainTypes ∧ t.cur = s.cur ∧
      t.layer = s.layer ∧ t.queue = s.queue ∧ t.freeCount = s.freeCount := by
  obtain ⟨lp, hlp, ⟨L, n, -, rfl, -⟩ | ⟨v, -, -, rfl⟩ | ⟨-, -, rfl⟩⟩ := exec_next h
  · exact ⟨lp, _, hlp, rfl, rfl, rfl, rfl, rfl, rfl, rfl, rfl⟩
  · exact ⟨lp, _, hlp, rfl, setLimitBit_cfg lp v, rfl, rfl, rfl, rfl, rfl, rfl⟩
  · exact ⟨lp, lp, hlp, (set_same hlp).symm, rfl, rfl, rfl, rfl, rfl, rfl, rfl⟩

/-- What a completed line keeps, likewise. -/
theorem runLine_frame {s t : State} {l : Line} (h : runLine l s = .next t) :
    ∃ lp lp', s.lps[s.cur]? = some lp ∧ t.lps = s.lps.set s.cur lp' ∧ lp'.cfg = lp.cfg ∧
      t.limitedMaxLeaf = s.limitedMaxLeaf ∧ t.domainTypes = s.domainTypes ∧ t.cur = s.cur ∧
      t.layer = s.layer ∧ t.queue = s.queue ∧ t.freeCount = s.freeCount := by
  obtain ⟨e, lp, -, hlp, rfl⟩ | ⟨e, lp, -, hlp, rfl⟩ | ⟨e, lp, -, hlp, rfl⟩ | ⟨c, i, -, -, h⟩ :=
    runLine_next h
  · exact ⟨lp, _, hlp, rfl, rfl, rfl, rfl, rfl, rfl, rfl, rfl⟩
  · exact ⟨lp, _, hlp, rfl, rfl, rfl, rfl, rfl, rfl, rfl, rfl⟩
  · exact ⟨lp, lp, hlp, (set_same hlp).symm, rfl, rfl, rfl, rfl, rfl, rfl, rfl⟩
  · exact exec_frame h

/-- Replacing a logical processor by one of the same configuration keeps all configurations. -/
theorem map_cfg_set {lps : List Lp} {k : Nat} {lp lp' : Lp} (h : lps[k]? = some lp)
    (hc : lp'.cfg = lp.cfg) : (lps.set k lp').map Lp.cfg = lps.map Lp.cfg := by
  obtain ⟨hk, rfl⟩ := List.getElem?_eq_some_iff.mp h
  rw [List.map_set, hc]
  exact List.ext_getElem (by simp) fun j _ _ => by
    rw [List.getElem_set]; split
    · subst_vars; simp
    · simp

/-! ### The fields a sub-leaf's echo leaves alone -/

@[simp] theorem withEcho_eax (w : Words) (n : Word) : (w.withEcho n).eax = w.eax := rfl
@[simp] theorem withEcho_ebx (w : Words) (n : Word) : (w.withEcho n).ebx = w.ebx := rfl
@[simp] theorem withEcho_edx (w : Words) (n : Word) : (w.withEcho n).edx = w.edx := rfl

/-- ECX[7:0] is the low byte of the sub-leaf. -/
theorem withEcho_subleafEcho (w : Words) (n : Word) : (w.withEcho n).subleafEcho = n.setWidth 8 := by
  apply BitVec.eq_of_getLsbD_eq
  intro i hi
  simp only [Words.withEcho, Words.subleafEcho, BitVec.getLsbD_extractLsb', BitVec.getLsbD_or,
    BitVec.getLsbD_and, BitVec.getLsbD_setWidth, hi, decide_true, Bool.true_and, Nat.zero_add]
  interval_cases i <;> simp

/-- ECX[31:8] is the table's. -/
theorem withEcho_high (w : Words) (n : Word) :
    (w.withEcho n).ecx.extractLsb' 8 24 = w.ecx.extractLsb' 8 24 := by
  apply BitVec.eq_of_getLsbD_eq
  intro i hi
  simp only [Words.withEcho, BitVec.getLsbD_extractLsb', BitVec.getLsbD_or, BitVec.getLsbD_and, hi,
    decide_true, Bool.true_and]
  interval_cases i <;> simp

/-- ECX[15:8], the domain type, is the table's. -/
theorem withEcho_domainType (w : Words) (n : Word) : (w.withEcho n).domainType = w.domainType := by
  apply BitVec.eq_of_getLsbD_eq
  intro i hi
  simp only [Words.withEcho, Words.domainType, BitVec.getLsbD_extractLsb', BitVec.getLsbD_or,
    BitVec.getLsbD_and, hi, decide_true, Bool.true_and]
  interval_cases i <;> simp

end Sys2Proof.Machine
end

