-- ==== Sys2Proof/Laws/PerInstr.lean ====
section
/-! SUPPORT. Statements made per instruction. `DecodeEncode`: decoding the encoding of a well-formed
instruction gives it back, one lemma per constructor. -/

namespace Sys2Proof.Laws

/-- The target byte of an MSR step gives its target back. -/
theorem msrTargetOfByte_byteOfMsrTarget {t : MsrTarget} (h : t.wellFormed = true) :
    msrTargetOfByte (byteOfMsrTarget t) = t := by
  cases t with
  | limitBit => rfl
  | otherUse tag =>
    have : tag ≠ 0 := by simpa [MsrTarget.wellFormed] using h
    exact if_neg this

/-- The fields of the ModR/M byte with reg field 7. -/
theorem flushOperandByte_fields (m : BitVec 2) (rm : BitVec 3) :
    (flushOperandByte m rm).extractLsb' 3 3 = 7 ∧ (flushOperandByte m rm).extractLsb' 6 2 = m ∧
      (flushOperandByte m rm).extractLsb' 0 3 = rm := by
  revert m rm; decide

/-- Decoding a flush operand gives its fields back. -/
theorem decodeFlushOperand_byte (make : BitVec 2 → BitVec 3 → Instr) {m : BitVec 2} (rm : BitVec 3)
    (h : m ≠ 3) (rest : List Byte) :
    decodeFlushOperand make (flushOperandByte m rm :: rest) = .ok (make m rm, rest) := by
  obtain ⟨h7, hm, hrm⟩ := flushOperandByte_fields m rm
  simp only [decodeFlushOperand, h7, hm, hrm]
  exact if_pos ⟨trivial, h⟩

namespace DecodeEncode

/-- Decoding the encoding of the instruction gives it back. -/
def Statement (i : Instr) : Prop := i.wellFormed = true → decode (encode i) = .ok i

theorem cpuid : Statement .cpuid := fun _ => rfl
theorem cpuid00 : Statement .cpuid00 := fun _ => rfl
theorem cpuid01 : Statement .cpuid01 := fun _ => rfl
theorem cpuid04 (n : Word) : Statement (.cpuid04 n) := fun _ => rfl
theorem cpuid0B (n : Word) : Statement (.cpuid0B n) := fun _ => rfl
theorem cpuid18 (n : Word) : Statement (.cpuid18 n) := fun _ => rfl
theorem cpuid1F (n : Word) : Statement (.cpuid1F n) := fun _ => rfl

theorem wrmsr (t : MsrTarget) (v : Bool) : Statement (.wrmsr t v) := fun h => by
  have ht := msrTargetOfByte_byteOfMsrTarget (t := t) h
  cases v <;>
    simp [encode, decode, decodeBytes, decodeTwoByte, decodeWriteOperands, Except.map, ht]

theorem rdmsr (t : MsrTarget) : Statement (.rdmsr t) := fun h => by
  have ht := msrTargetOfByte_byteOfMsrTarget (t := t) h
  simp [encode, decode, decodeBytes, decodeTwoByte, decodeReadOperand, Except.map, ht]

theorem wbinvd : Statement .wbinvd := fun _ => rfl
theorem invd : Statement .invd := fun _ => rfl

theorem clflush (m : BitVec 2) (rm : BitVec 3) : Statement (.clflush m rm) := fun h => by
  have hm : m ≠ 3 := by simpa [Instr.wellFormed] using h
  simp [encode, decode, decodeBytes, decodeTwoByte, Except.map,
    decodeFlushOperand_byte Instr.clflush rm hm []]

theorem clflushopt (m : BitVec 2) (rm : BitVec 3) : Statement (.clflushopt m rm) := fun h => by
  have hm : m ≠ 3 := by simpa [Instr.wellFormed] using h
  simp [encode, decode, decodeBytes, decodePrefixed, decodePrefixedTwoByte, Except.map,
    decodeFlushOperand_byte Instr.clflushopt rm hm []]

end DecodeEncode

end Sys2Proof.Laws
end

