-- ==== Sys2Proof/Tests/Slice0.lean ====
section
/-! SUPPORT. Tests. Expected results come from 95_test_vectors.md (the vector is named in each comment)
or from the encodings of 30_encoding.md; the platforms are P1 to P6 of that file with its "?" words
taken as 0. A witness shows that the hypotheses of a statement can be met together. -/

namespace Sys2Proof.Tests

open Sys2Proof.Machine Host

/-! ### Platforms -/

/-- Platform P1, logical processor `i`. -/
def p1 (i : Nat) : LpConfig where
  x2apicId := BitVec.ofNat 32 i
  initialApicId := BitVec.ofNat 8 i
  hasLimitBit := true
  limitAtBoot := false
  leaf00 := ⟨0x1F, 0, 0, 0⟩
  leaf01 := ⟨0, BitVec.ofNat 8 i ++ 0x100800#24, 0, 0x10000000⟩
  leaf04 := ⟨[⟨0x1C004121, 0x01C0003F, 0x3F, 0⟩, ⟨0x1C004122, 0x01C0003F, 0x3F, 0⟩,
    ⟨0x1C004143, 0x00C0003F, 0x3FF, 0⟩, ⟨0x1C03C163, 0x03C0003F, 0x3FFF, 6⟩], Words.zero⟩
  leaf0B := Config.resetExtended i
  leaf18 := ⟨[⟨3, 0, 0, 0⟩, ⟨0, 0x00040003, 0x10, 0x4021⟩, Words.zero,
    ⟨0, 0x0008000B, 0x80, 0x4043⟩], Words.zero⟩
  leaf1F := Config.resetExtended i

/-- Platform P2: maximum leaf 4, one cache. -/
def p2lp (i : Nat) : LpConfig :=
  { p1 i with
    leaf00 := ⟨4, 0, 0, 0⟩
    leaf04 := ⟨[⟨0x1C004121, 0x01C0003F, 0x3F, 0⟩], Words.zero⟩ }

/-- P1 with another maximum leaf. -/
def withMax (m : Word) (i : Nat) : LpConfig := { p1 i with leaf00 := ⟨m, 0, 0, 0⟩ }

/-- Platform P4: P1 with the limit bit set at boot. -/
def p4 (i : Nat) : LpConfig := { p1 i with limitAtBoot := true }

/-- Platform P5: P1 with maximum leaf 20H and leaf 1FH not implemented. -/
def p5 (i : Nat) : LpConfig := { p1 i with leaf00 := ⟨0x20, 0, 0, 0⟩, leaf1F := ⟨[], ⟨7, 0, 7, 7⟩⟩ }

/-- Neither extended leaf implemented (P6, with the maximum that reaches both). -/
def p6 (i : Nat) : LpConfig := { p5 i with leaf0B := ⟨[], ⟨7, 0, 7, 7⟩⟩ }

/-- A processor without the limit bit (40 R104). -/
def noBit (i : Nat) : LpConfig := { p1 i with hasLimitBit := false }

/-- The start of a run on the given logical processors; LIMITED_MAX_LEAF is 2, as for P4. -/
def on (cs : List LpConfig) : State := State.boot ⟨cs, 2, Config.customaryDomainTypes⟩

/-- The first logical processor of a platform at the start of a run. -/
def start (cs : List LpConfig) : Lp := (cs.map Lp.boot).headD (Lp.boot (p1 0))

/-- Lines on logical processor `k`, by an agent of the OS. -/
def lines (cs : List LpConfig) (k : Nat) (ls : List Line) : State := (on cs).runOn k .os ls

/-- The state after `n` steps, if there is one. -/
def after (n : Nat) (s : State) : Option State :=
  match Core.run core n s with
  | .next t => some t
  | .fault _ => none
  | .refused _ => none

/-- The reason a step stopped, if it did. -/
def refusal : Result → Option Refusal
  | .refused r => some r
  | .next _ => none
  | .fault _ => none

/-- The four registers of logical processor `k`, where all hold values. -/
def regs (k : Nat) (s : State) : Option Words :=
  match s.lps[k]? with
  | some lp =>
    match lp.eax.read, lp.ebx.read, lp.ecx.read, lp.edx.read with
    | some a, some b, some c, some d => some ⟨a, b, c, d⟩
    | _, _, _, _ => none
  | none => none

/-- The registers of logical processor 0 after `n` steps. -/
def regsAfter (n : Nat) (s : State) : Option Words := (after n s).bind (regs 0)

/-- A CPUID line. -/
def cpuidLine : Line := .code (.bytes [0x0F, 0xA2])

/-- Logical processor 0 with values in EAX and ECX, or none. -/
def withInputs (cs : List LpConfig) (eax ecx : Option Word) : State :=
  let reg := fun o : Option Word => o.elim Reg.empty Reg.of
  (on cs).setLp 0 { start cs with eax := reg eax, ecx := reg ecx }

/-! ### Well-formedness: an ill-formed term for each check -/

theorem test_wf_refuses_msr_tag : (Instr.rdmsr (.otherUse 0)).wellFormed = false := by decide
theorem test_wf_refuses_wrmsr_tag : (Instr.wrmsr (.otherUse 0) true).wellFormed = false := by decide
theorem test_wf_refuses_clflush_register : (Instr.clflush 3 0).wellFormed = false := by decide
theorem test_wf_refuses_clflushopt_register : (Instr.clflushopt 3 0).wellFormed = false := by decide

/-! ### Decoding: words and bytes written out from 30 R71, R80, R84, R87 and 93 K1 to K3 -/

theorem test_decode_cpuid : decode (.bytes [0x0F, 0xA2]) = .ok .cpuid := by decide
theorem test_decode_cpuid00 : decode (.query 0x00 0) = .ok .cpuid00 := by decide
theorem test_decode_cpuid01 : decode (.query 0x01 9) = .ok .cpuid01 := by decide
theorem test_decode_cpuid04 : decode (.query 0x04 3) = .ok (.cpuid04 3) := by decide
theorem test_decode_cpuid0B : decode (.query 0x0B 1) = .ok (.cpuid0B 1) := by decide
theorem test_decode_cpuid18 : decode (.query 0x18 0x201) = .ok (.cpuid18 0x201) := by decide
theorem test_decode_cpuid1F : decode (.query 0x1F 0xFFFFFFFF) = .ok (.cpuid1F 0xFFFFFFFF) := by decide
theorem test_decode_wrmsr : decode (.bytes [0x0F, 0x30, 0, 1]) = .ok (.wrmsr .limitBit true) := by
  decide
theorem test_decode_rdmsr : decode (.bytes [0x0F, 0x32, 5]) = .ok (.rdmsr (.otherUse 5)) := by decide
theorem test_decode_wbinvd : decode (.bytes [0x0F, 0x09]) = .ok .wbinvd := by decide
theorem test_decode_invd : decode (.bytes [0x0F, 0x08]) = .ok .invd := by decide
theorem test_decode_clflush : decode (.bytes [0x0F, 0xAE, 0x7A]) = .ok (.clflush 1 2) := by decide
theorem test_decode_clflushopt :
    decode (.bytes [0x66, 0x0F, 0xAE, 0xBD]) = .ok (.clflushopt 2 5) := by decide

/-- /7 with a register operand, and another /r, are not CLFLUSH; 66H with another opcode is no row. -/
theorem test_decode_reserved : decode (.bytes [0x0F, 0xAE, 0xF8]) = .error .reservedForm ∧
    decode (.bytes [0x0F, 0xAE, 0x30]) = .error .reservedForm ∧
    decode (.bytes [0x66, 0x90]) = .error .unknownOpcode ∧
    decode (.bytes [0x66, 0x0F, 0xA2]) = .error .unknownOpcode := by decide

/-- Program A's byte image (95, part 3). -/
theorem test_decode_programA :
    decodeImage 5 [0xB8, 0, 0, 0, 0, 0x0F, 0xA2, 0xB8, 0x1F, 0, 0, 0, 0xB9, 0, 0, 0, 0, 0x0F, 0xA2] =
      .ok [.setEax (.const 0), cpuidLine, .setEax (.const 0x1F), .setEcx (.const 0), cpuidLine] := by decide

/-! ### CPUID and its query rows -/

/-- Program A, lp 5. -/
theorem test_programA :
    regsAfter 5 (lines [p1 5] 0 [.setEax (.const 0), cpuidLine, .setEax (.const 0x1F), .setEcx (.const 0), cpuidLine]) =
      some ⟨1, 2, 0x100, 5⟩ := by decide

/-- Program A with expressions: step 3's leaf is `x[EAX]`, which step 2 left at 1FH, kept in a variable, and
step 4's sub-leaf is `x[EAX] & ~0x1F`. -/
theorem test_programA_expressions :
    regsAfter 6 (lines [p1 5] 0 [.setEax (.const 0), cpuidLine, .keep (.reg .eax),
      .setEcx (.bin .and (.reg .eax) (.not (.const 0x1F))), .setEax (.var 0), cpuidLine]) =
      some ⟨1, 2, 0x100, 5⟩ := by decide

/-- 41 R162 in lines, on logical processor 21 (Program B): `EDX >> EAX[4:0]` after sub-leaf 1 is PACKAGE_ID 1. -/
theorem test_packageId_expression :
    ((after 4 (lines [p1 21] 0 [.setEax (.const 0x1F), .setEcx (.const 1), cpuidLine,
      .keep (.bin .shr (.reg .edx) (.slice (.reg .eax) 0 5))])).map State.vars) = some [1] := by decide

/-- V-40-7: leaf 04H reads ECX, which holds no value after reset. -/
theorem test_cpuid_without_ecx :
    refusal (exec .cpuid (withInputs [p1 5] (some 4) none)) = some .registerHoldsNoValue := by decide

/-- V-40-18, first half: under limited reporting CPUID.0:EAX is LIMITED_MAX_LEAF (V-40-14). -/
theorem test_cpuid00_limited : regsAfter 1 (lines [p4 5] 0 [.code (.query 0 0)]) =
    some ⟨2, 0, 0, 0⟩ := by decide

/-- V-44-1, on P2 lp 5. -/
theorem test_cpuid01 : regsAfter 1 (lines [p2lp 5] 0 [.code (.query 1 0)]) =
    some ⟨0, 0x05100800, 0, 0x10000000⟩ := by decide

/-- P1, leaf 04H sub-leaf 3. -/
theorem test_cpuid04 : regsAfter 1 (lines [p1 5] 0 [.code (.query 4 3)]) =
    some ⟨0x1C03C163, 0x03C0003F, 0x3FFF, 6⟩ := by decide

/-- V-40-15: above the limited maximum. -/
theorem test_cpuid04_limited :
    refusal (exec (.cpuid04 0) (on [p4 5])) = some .leafAboveMaximum := by decide

/-- V-41-2: leaf 0BH sub-leaf 1 on lp 21. -/
theorem test_cpuid0B : regsAfter 1 (lines [p1 21] 0 [.code (.query 0x0B 1)]) =
    some ⟨4, 0x10, 0x201, 0x15⟩ := by decide

/-- V-40-5: 0BH is above P2's maximum. -/
theorem test_cpuid0B_above :
    refusal (exec (.cpuid0B 0) (on [p2lp 5])) = some .leafAboveMaximum := by decide

/-- P1, leaf 18H sub-leaf 3. -/
theorem test_cpuid18 : regsAfter 1 (lines [p1 5] 0 [.code (.query 0x18 3)]) =
    some ⟨0, 0x0008000B, 0x80, 0x4043⟩ := by decide

/-- V-41-3: an invalid sub-leaf above 255 echoes its low byte. -/
theorem test_cpuid1F_invalid : regsAfter 1 (lines [p1 21] 0 [.code (.query 0x1F 0x201)]) =
    some ⟨0, 0, 1, 0x15⟩ := by decide

/-- 93 U8: a leaf 1FH that is not implemented has EBX 0 and no promised x2APIC ID. -/
theorem test_cpuid1F_absent : regsAfter 1 (lines [p5 21] 0 [.code (.query 0x1F 0)]) =
    some ⟨7, 0, 7, 7⟩ := by decide

/-! ### The limit bit -/

/-- V-40-18 and V-40-19: clearing the bit on lp 5 restores its full reporting and not lp 6's. -/
theorem test_wrmsr_one_processor :
    ((after 3 ((lines [p4 5, p4 6] 0 [.code (encode (.wrmsr .limitBit false)), .code (.query 0 0)]).runOn
      1 .os [.code (.query 0 0)])).map fun s => (regs 0 s, regs 1 s)) =
      some (some ⟨0x1F, 0, 0, 0⟩, some ⟨2, 0, 0, 0⟩) := by decide

/-- V-40-20: an application is refused. -/
theorem test_wrmsr_application :
    refusal (exec (.wrmsr .limitBit false) { on [p4 5] with layer := .application }) =
      some .msrAccessWithoutPrivilege := by decide

/-- V-40-17: ReadLimitBit gives 1 on P4. -/
theorem test_rdmsr : ((after 1 (lines [p4 5] 0 [.code (encode (.rdmsr .limitBit))])).map
    State.readBit) = some true := by decide

/-! ### The instructions the spec refuses (30 R84) -/

theorem test_wbinvd : refusal (exec .wbinvd (on [p1 5])) = some .unmodelledInstruction := by decide
theorem test_invd : refusal (exec .invd (on [p1 5])) = some .unmodelledInstruction := by decide
theorem test_clflush :
    refusal (exec (.clflush 0 0) (on [p1 5])) = some .unmodelledInstruction := by decide
theorem test_clflushopt :
    refusal (exec (.clflushopt 0 0) (on [p1 5])) = some .unmodelledInstruction := by decide

/-! ### The algorithms -/

/-- What an extended leaf with the given shifts and types returns. -/
def leafOf (rows : List (Word × Word)) (n : Word) : Words :=
  match rows[n.toNat]? with
  | some (shift, type) => ⟨shift, 1, type <<< 8 ||| n, 0⟩
  | none => ⟨0, 0, n &&& 0xFF, 0⟩

/-- Example C, V-41-6. -/
def exampleC : Word → Words := leafOf [(1, 1), (3, 2), (4, 9), (6, 5)]

theorem test_threeDomain_exampleC :
    threeDomainShifts Config.customaryDomainTypes exampleC = (1, 6) := by decide

theorem test_nDomain_exampleC : nDomainShifts Config.customaryDomainTypes [1, 2, 5] exampleC =
    ⟨[(1, 1), (2, 4), (5, 6)], [(1, 0), (2, 1), (5, 4)], 6, some 4⟩ := by decide

/-- Example D with software that knows logical processor, core and module (Table 1-12). -/
theorem test_nDomain_exampleD : nDomainShifts Config.customaryDomainTypes [1, 2, 3]
    (leafOf [(1, 1), (3, 2), (4, 9), (6, 3), (8, 5), (9, 10), (11, 200)]) =
    ⟨[(1, 1), (2, 4), (3, 11)], [(1, 0), (2, 1), (3, 4)], 11, some 4⟩ := by decide

/-- V-41-11: the largest shift. -/
theorem test_masks_largest : coreMask 1 31 = 0x7FFFFFFE ∧ packageMask 31 = 0x80000000 := by decide

/-- V-41-14: the sub-IDs of 0xDA7 in Example D. -/
theorem test_subIds_exampleD : (lpId 1 0xDA7, subId 1 4 0xDA7, subId 4 6 0xDA7, subId 6 11 0xDA7,
    packageId 11 0xDA7) = (1, 3, 2, 22, 1) := by decide

/-- V-40-9, V-40-10, V-40-12, V-40-16: the choice of method. -/
theorem test_chooseMethod : ([p1 5, p5 5, p2lp 5, p4 5].map fun c => (Lp.boot c).chooseMethod 2) =
    [.ok .leaf1F, .ok .leaf0B, .ok .legacy0104, .ok .legacy01Only] := by decide

/-- V-40-11, V-40-13. -/
theorem test_chooseMethod_without_leaf : ([p6 5, withMax 0 5].map fun c => (Lp.boot c).chooseMethod 2) =
    [.ok .legacy0104, .error .noCpuidApicId] := by decide

/-- V-42-2: masks and IDs of the level-1 and the level-3 cache of lp 5. -/
theorem test_cacheMask : (((cachesOf (p1 5).leaf04.at).map fun e => (cacheMask e.2, cacheId e.2 5)) =
    [(0xFFFFFFFE, 4), (0xFFFFFFFE, 4), (0xFFFFFFFE, 4), (0xFFFFFFF0, 0)]) := by decide

/-- V-42-8 and V-42-9: a difference in ECX, or in reserved bits of EAX, is a difference. -/
theorem test_sharesCache_whole_registers :
    let r : Words := ⟨0x1C004143, 0x00C0003F, 0x3FF, 0⟩
    sharesCache r 21 20 [(2, r)] = true ∧ sharesCache r 21 20 [(2, { r with ecx := 0x7FF })] = false ∧
      sharesCache r 21 20 [(2, { r with eax := 0x1C004543 })] = false := by decide

/-- V-43-1: sub-leaves 1 and 3, over the hole at 2. -/
theorem test_tlbsOf : (tlbsOf (p1 5).leaf18.at).map Prod.fst = [1, 3] := by decide

/-- V-43-4 and V-43-5: EAX does not count, EBX does. -/
theorem test_sharesTlb :
    let r : Words := ⟨0, 0x00040003, 0x10, 0x4021⟩
    sharesTlb r 21 20 [(5, { r with eax := 0xFFFFFFFF })] = true ∧
      sharesTlb r 21 20 [(1, { r with ebx := 0x00040103 })] = false := by decide

/-- P1's level-3 cache (42 R171: 16 IDs reserved for sharers, 8 for cores) and its TLB of sub-leaf 1
(43 R190's worked example: two IDs). -/
theorem test_records_reserve_ids :
    let c := Cache.ofWords ⟨0x1C03C163, 0x03C0003F, 0x3FFF, 6⟩ []
    let t := Tlb.ofWords ⟨0, 0x00040003, 0x10, 0x4021⟩ []
    (c.addressableLpIds, c.reservedLpIds, c.addressableCoreIds) = (16, 16, 8) ∧
      (t.addressableLpIds, t.reservedLpIds) = (2, 2) := by decide

/-- V-44-2, by the corrected formula. -/
theorem test_legacyMasks : (Lp.boot (p2lp 5)).legacyMasks 2 = .ok ⟨5, 0x01, 0x0E, 1, 0xF0, 4⟩ := by
  decide

/-- V-44-5, V-44-6, V-44-13. -/
theorem test_legacy_extremes :
    masksOfCounts 5 (maxLpIdsPerPackage true 255) (maxCoreIdsPerPackage (some 63)) =
        .ok ⟨5, 0x03, 0xFC, 2, 0x00, 8⟩ ∧
      masksOfCounts 5 (maxLpIdsPerPackage true 255) (maxCoreIdsPerPackage (some 0)) =
        .ok ⟨5, 0xFF, 0x00, 8, 0x00, 8⟩ ∧
      masksOfCounts 5 (maxLpIdsPerPackage true 4) (maxCoreIdsPerPackage (some 7)) =
        .error .malformedLegacyCounts := by decide

/-- V-45-3: sparse IDs, dense ordinals. -/
theorem test_counts_sparse :
    let ids : List Word := [0, 1, 4, 5, 16, 17]
    countInstances 4 ids = 2 ∧ maskedIds 0xFFFFFFFE ids = [0, 4, 16] ∧ ordinal 1 4 ids 5 = 1 ∧
      packageOrdinal 4 ids 17 = 1 := by decide

/-- V-42-3 on the two logical processors of one core. -/
theorem test_gather_sharers :
    ((on [p1 20, p1 21]).gather.map fun rows => rows.map fun row =>
      (row.cacheRecords rows).map Cache.sharers) =
      .ok [[[20, 21], [20, 21], [20, 21], [20, 21]], [[20, 21], [20, 21], [20, 21], [20, 21]]] := by
  decide

/-! ### P1 is well formed -/

/-- The platform parameters of P1's vectors. -/
abbrev dt : DomainTypes := Config.customaryDomainTypes

theorem extended_impl (i : Nat) : (Config.resetExtended i).implemented = true := rfl

theorem extended_zero (i : Nat) (x : Word) :
    extendedWords (Config.resetExtended i) x 0 = ⟨1, 2, 0x100, x⟩ := by
  have h : (Config.resetExtended i).at 0 = ⟨1, 2, 0x100, BitVec.ofNat 32 i⟩ := rfl
  simp only [extendedWords, extended_impl, if_true, h, Words.withEcho]
  congr 1

theorem extended_one (i : Nat) (x : Word) :
    extendedWords (Config.resetExtended i) x 1 = ⟨4, 0x10, 0x201, x⟩ := by
  have h : (Config.resetExtended i).at 1 = ⟨4, 0x10, 0x201, BitVec.ofNat 32 i⟩ := rfl
  simp only [extendedWords, extended_impl, if_true, h, Words.withEcho]
  congr 1

/-- Sub-leaves 2 and above are invalid. -/
theorem extended_tail (i : Nat) (x n : Word) (h : 2 ≤ n.toNat) :
    let r := extendedWords (Config.resetExtended i) x n
    r.eax = 0 ∧ r.ebx = 0 ∧ r.domainType = 0 := by
  have hat : (Config.resetExtended i).at n = ⟨0, 0, 0, BitVec.ofNat 32 i⟩ := by
    simp [SubleafTable.at, Config.resetExtended, List.getElem?_eq_none, h]
  simp only [extendedWords, extended_impl, if_true, hat]
  refine ⟨rfl, rfl, ?_⟩
  have := withEcho_domainType ⟨0, 0, 0, BitVec.ofNat 32 i⟩ n
  simp only [Words.domainType] at this ⊢
  rw [this]
  decide

theorem below_two {n : Word} (h : n.toNat < 2) : n = 0 ∨ n = 1 := by bv_omega

theorem extended_wf (i : Nat) (x : Word) :
    ExtendedWf dt (extendedWords (Config.resetExtended i) x) 2 := by
  have d0 : (extendedWords (Config.resetExtended i) x 0).domainType = 1 := by
    rw [extended_zero]; simp only [Words.domainType]; decide
  have d1 : (extendedWords (Config.resetExtended i) x 1).domainType = 2 := by
    rw [extended_one]; simp only [Words.domainType]; decide
  refine ⟨⟨d0, d1⟩, by decide, fun n => ?_, fun n h => ?_, fun n h => ?_, fun n m h1 h2 => ?_,
    fun n m h1 h2 h => ?_, fun n m d e h1 h2 h3 h4 => ?_⟩
  · by_cases h : n.toNat < 2
    · rcases below_two h with rfl | rfl
      · rw [d0]; decide
      · rw [d1]; decide
    · simp only [(extended_tail i x n (by omega)).2.2, h]; decide
  · exact ⟨(extended_tail i x n h).1, (extended_tail i x n h).2.1⟩
  · rcases below_two h with rfl | rfl
    · rw [extended_zero]; simp only [Words.numLp]; decide
    · rw [extended_one]; simp only [Words.numLp]; decide
  · rcases below_two h2 with rfl | rfl <;> rcases below_two (by omega : n.toNat < 2) with rfl | rfl <;>
      simp only [extended_zero, extended_one, Words.shift] <;>
      first | decide | exact absurd h1 (by decide)
  · rcases below_two h2 with rfl | rfl <;> rcases below_two h1 with rfl | rfl <;> simp_all
  · rcases below_two h2 with rfl | rfl <;> rcases below_two (by omega : n.toNat < 2) with rfl | rfl <;>
      try exact absurd h1 (by decide)
    rw [d0] at h3
    rw [d1] at h4
    revert h3 h4
    cases d <;> cases e <;> decide

theorem exampleC_tail {n : Word} (h : 4 ≤ n.toNat) : exampleC n = ⟨0, 0, n &&& 0xFF, 0⟩ := by
  simp only [exampleC, leafOf]
  rw [List.getElem?_eq_none (by simpa using h)]

/-- Example C, with an unknown domain between core and die, is a well-formed leaf 1FH. -/
theorem exampleC_wf : ExtendedWf dt exampleC 4 := by
  have key : ∀ n : Word, n.toNat < 4 → n = 0 ∨ n = 1 ∨ n = 2 ∨ n = 3 := by intro n h; bv_omega
  refine ⟨by decide, by decide, fun n => ?_, fun n h => ?_, fun n h => ?_, fun n m h1 h2 => ?_,
    fun n m h1 h2 => ?_, fun n m d e h1 h2 => ?_⟩
  · by_cases h : n.toNat < 4
    · rcases key n h with rfl | rfl | rfl | rfl <;> decide
    · have : (⟨0, 0, n &&& 0xFF, 0⟩ : Words).domainType = 0 := by
        apply BitVec.eq_of_getLsbD_eq
        intro i hi
        simp only [Words.domainType, BitVec.getLsbD_extractLsb', BitVec.getLsbD_and]
        interval_cases i <;> simp
      rw [exampleC_tail (by omega), this]
      simp [h]
  · rw [exampleC_tail h]; exact ⟨rfl, rfl⟩
  · rcases key n h with rfl | rfl | rfl | rfl <;> decide
  · rcases key m h2 with rfl | rfl | rfl | rfl <;>
      rcases key n (by omega) with rfl | rfl | rfl | rfl <;> revert h1 <;> decide
  · rcases key m h2 with rfl | rfl | rfl | rfl <;> rcases key n h1 with rfl | rfl | rfl | rfl <;> decide
  · rcases key m h2 with rfl | rfl | rfl | rfl <;>
      rcases key n (by omega) with rfl | rfl | rfl | rfl <;> cases d <;> cases e <;> revert h1 <;> decide

theorem caches_wf (i : Nat) : CachesWf (p1 i).leaf04.at 4 := by
  have key : ∀ n : Word, n.toNat < 4 → n = 0 ∨ n = 1 ∨ n = 2 ∨ n = 3 := by intro n h; bv_omega
  refine ⟨by decide, fun n h => ?_, rfl, fun n h => ?_, fun n m h h' => ?_, fun n h => ?_⟩
  · have e : (p1 i).leaf04 = (p1 0).leaf04 := rfl
    rw [e]
    rcases key n h with rfl | rfl | rfl | rfl <;> decide
  · have : (p1 i).leaf04.listed.length = 4 := rfl
    simp only [SubleafTable.at]
    rw [List.getElem?_eq_none (by omega)]
    rfl
  · have e : (p1 i).leaf04 = (p1 0).leaf04 := rfl
    rw [e]
    rcases key n h with rfl | rfl | rfl | rfl <;> rcases key m h' with rfl | rfl | rfl | rfl <;> decide
  · have e : (p1 i).leaf04 = (p1 0).leaf04 := rfl
    rw [e]
    rcases key n h with rfl | rfl | rfl | rfl <;> decide

theorem tlbs_wf (i : Nat) : TlbsWf (p1 i).leaf18.at := by
  have e : (p1 i).leaf18 = (p1 0).leaf18 := rfl
  have key : ∀ n : Word, n = 0 ∨ n = 1 ∨ n = 2 ∨ n = 3 ∨ 4 ≤ n.toNat := by intro n; bv_omega
  have tail : ∀ n : Word, 4 ≤ n.toNat → (p1 0).leaf18.at n = Words.zero := fun n h => by
    have : (p1 0).leaf18.listed.length = 4 := rfl
    simp only [SubleafTable.at]
    rw [List.getElem?_eq_none (by omega)]
    rfl
  rw [e]
  refine ⟨fun n hn h => ?_, by decide, fun n h => ?_⟩
  · rcases key n with rfl | rfl | rfl | rfl | h4
    · exact absurd rfl hn
    · exact absurd h (by decide)
    · rfl
    · exact absurd h (by decide)
    · exact tail n h4
  · rcases key n with rfl | rfl | rfl | rfl | h4
    · exact absurd h (by decide)
    · decide
    · exact absurd h (by decide)
    · decide
    · rw [tail n h4] at h; exact absurd h (by decide)

/-- 44 R212 on P1. -/
theorem leaf01_id (i : Nat) : (p1 i).leaf01.initialApicId = (p1 i).initialApicId := by
  simp only [p1, Words.initialApicId]
  exact BitVec.extractLsb'_append_eq_left

/-- P1 with any maximum leaf from 2, LIMITED_MAX_LEAF, on. -/
theorem withMax_wf {m : Word} (i : Nat) (h : 2 ≤ m) : LpConfigWf dt 2 (withMax m i) where
  leaf1F _ _ := ⟨2, extended_wf i _⟩
  leaf0B _ _ := extended_wf i _
  leaf04 _ := ⟨4, caches_wf i⟩
  leaf18 _ := tlbs_wf i
  leaf01 _ := leaf01_id i
  limit _ := h

theorem p1_wf (i : Nat) : LpConfigWf dt 2 (p1 i) := withMax_wf (m := 0x1F) i (by decide)

/-- P1 with its limit bit set at boot (P4) is well formed too. -/
theorem p4_wf (i : Nat) : LpConfigWf dt 2 (p4 i) where
  leaf1F _ _ := ⟨2, extended_wf i _⟩
  leaf0B _ _ := extended_wf i _
  leaf04 _ := ⟨4, caches_wf i⟩
  leaf18 _ := tlbs_wf i
  leaf01 _ := leaf01_id i
  limit _ := (by decide : (2 : Word) ≤ 0x1F)

/-- The platform of logical processors 20 and 21 of P1. -/
def pair : Platform := ⟨[p1 20, p1 21], 2, dt⟩

theorem pair_wf : PlatformWf pair.lps pair.limitedMaxLeaf pair.domainTypes where
  nonempty := by decide
  types := by decide
  each c hc := by
    simp only [pair, List.mem_cons, List.not_mem_nil, or_false] at hc
    rcases hc with rfl | rfl
    · exact p1_wf 20
    · exact p1_wf 21
  ids := by
    have h : uniqueId (p1 20) ≠ uniqueId (p1 21) := by decide
    simpa [IdsWf, pair] using h

theorem pair_uniform : UniformShifts pair.lps := by
  have key : ∀ (i j : Nat) (x y n : Word),
      (extendedWords (Config.resetExtended i) x n).shift =
          (extendedWords (Config.resetExtended j) y n).shift ∧
        (extendedWords (Config.resetExtended i) x n).domainType =
          (extendedWords (Config.resetExtended j) y n).domainType := fun i j x y n => by
    by_cases h : n.toNat < 2
    · rcases below_two h with rfl | rfl
      · rw [extended_zero, extended_zero]; exact ⟨rfl, rfl⟩
      · rw [extended_one, extended_one]; exact ⟨rfl, rfl⟩
    · obtain ⟨a, -, b⟩ := extended_tail i x n (by omega)
      obtain ⟨c, -, d⟩ := extended_tail j y n (by omega)
      exact ⟨by simp only [Words.shift, a, c], b.trans d.symm⟩
  intro c hc d hd n
  simp only [pair, List.mem_cons, List.not_mem_nil, or_false] at hc hd
  rcases hc with rfl | rfl <;> rcases hd with rfl | rfl <;> exact ⟨key _ _ _ _ n, key _ _ _ _ n⟩

/-- The pair of logical processors with a query pending on the second. -/
def pairQuery : State := (State.boot pair).runOn 1 .application [.code (encode (.cpuid1F 0))]

theorem pairQuery_inv : Inv pairQuery where
  platform := pair_wf
  registers lp hlp := by
    simp only [pairQuery, runOn_lps, boot_lps, pair, List.map_cons, List.map_nil, List.mem_cons,
      List.not_mem_nil, or_false] at hlp
    rcases hlp with rfl | rfl <;> exact ⟨rfl, fun h => absurd h (by decide)⟩
  limit lp hlp := by
    simp only [pairQuery, runOn_lps, boot_lps, pair, List.map_cons, List.map_nil, List.mem_cons,
      List.not_mem_nil, or_false] at hlp
    rcases hlp with rfl | rfl <;> exact fun h => absurd h (by decide)
  current := by decide
  bound p hp k hk := by
    simp only [pairQuery, runOn_queue, boot_queue, pendingLines, List.map_cons, List.map_nil,
      List.nil_append, List.mem_singleton] at hp
    subst hp
    cases hk
    decide

/-! ### Witnesses: the hypotheses of each statement, met together -/

theorem witness_DecodeEncodeAgree : (Instr.clflushopt 2 7).wellFormed = true ∧
    (Instr.wrmsr (.otherUse 0xFF) true).wellFormed = true ∧
    (Instr.cpuid1F 0xFFFFFFFF).wellFormed = true := by decide

theorem witness_DecodedIsWellFormed :
    decode (.bytes [0x66, 0x0F, 0xAE, 0x38, 0xFF]) = .ok (.clflushopt 0 0) ∧
    decode (.query 0x1F 0xFFFFFFFF) = .ok (.cpuid1F 0xFFFFFFFF) ∧
    decode (.query 0x01 9) = .ok .cpuid01 := by decide

theorem not_selector {v : Word} (h : Leaf.ofWord v = none) (L : Leaf) : v ≠ L.selector := by
  rintro rfl; simp at h

theorem witness_SelectorMap : (∀ L : Leaf, (0x02 : Word) ≠ L.selector) ∧
    (∀ L : Leaf, (0x20 : Word) ≠ L.selector) ∧ ∀ L : Leaf, (0xFFFFFFFF : Word) ≠ L.selector :=
  ⟨not_selector (by decide), not_selector (by decide), not_selector (by decide)⟩

theorem witness_StepRunsDecodedInstruction :
    ∃ p rest c i, pairQuery.queue = p :: rest ∧ p.line = .code c ∧ decode c = .ok i ∧ p.on = some 1 :=
  ⟨_, _, _, _, rfl, rfl, rfl, rfl⟩

theorem witness_TableWordRunsNext :
    decodeTableWord 32 0x1F = some (.cpuid1F 0) ∧ decodeTableWord 16 0x0F32 = some (.rdmsr .limitBit) := by
  decide

/-- A register that holds a value, a variable, slices of one bit at bit 31 and of all 32 bits, powers of two 1 and 2^31, the bounds of
P2's precondition, a divisor and the largest shift count. -/
theorem witness_RegisterLinesSet :
    let s : State := { withInputs [p1 5] (some 4) none with vars := [9] }
    ∃ lp, s.lps[s.cur]? = some lp ∧ lp.reg .eax = Reg.of 4 ∧ s.vars[0]? = some 9 ∧ (0 < 1 ∧ 31 + 1 ≤ 32) ∧ (0 < 32 ∧ 0 + 32 ≤ 32) ∧
      (s.value lp (.const 1)).toNat = 2 ^ 0 ∧ (s.value lp (.const 0x80000000)).toNat = 2 ^ 31 ∧
      1 ≤ s.value lp (.const 1) ∧ s.value lp (.const 0x80000000) ≤ 0x80000000 ∧
      (s.value lp (.const 1)).toNat ≠ 0 ∧ (s.value lp (.const 31)).toNat < 32 :=
  ⟨_, rfl, rfl, rfl, by decide, by decide, by decide, by decide, by decide, by decide, by decide,
    by decide⟩

/-- An unlisted leaf; each of the three errors of bytes, the shortest code of each among them. -/
theorem witness_UndecodableLinesRefused : (∀ L : Leaf, (0x03 : Word) ≠ L.selector) ∧
    decode (.bytes [0x90]) = .error .unknownOpcode ∧
    decode (.bytes [0x0F, 0xAE, 0xF8]) = .error .reservedForm ∧
    decode (.bytes []) = .error .truncated ∧ decode (.bytes [0x0F, 0x30, 0]) = .error .truncated :=
  ⟨not_selector (by decide), by decide, by decide, by decide, by decide⟩

/-- A step bound to the last logical processor, an unbound step, a code cut short, and no step. -/
theorem witness_StepCompletesOrIsRefused :
    (∃ p, pairQuery.queue = [p] ∧ pairQuery.lps ≠ [] ∧ p.on = some 1 ∧ 1 < pairQuery.lps.length) ∧
    (∃ (s : State) (p : Pending), s.queue = [p] ∧ s.lps ≠ [] ∧ p.on = none) ∧
    (∃ (s : State) (p : Pending), s.queue = [p] ∧ s.lps ≠ [] ∧ p.on = some 0 ∧
      0 < s.lps.length ∧ p.line = .code (.bytes [0x0F])) ∧ (on [p1 5]).queue = [] :=
  ⟨⟨_, rfl, by decide, rfl, by decide⟩,
    ⟨(on [p1 5]).runUnbound .os [cpuidLine], _, rfl, by decide, rfl⟩,
    ⟨lines [p1 5] 0 [.code (.bytes [0x0F])], _, rfl, by decide, rfl, by decide, rfl⟩, rfl⟩

/-- The clauses in order: no EAX, no ECX, an unlisted leaf, a leaf one above the maximum, a leaf at it. -/
theorem witness_CpuidGeneralRule :
    (∃ (s : State) (lp : Lp), s.lps[s.cur]? = some lp ∧ lp.eax.holds = false) ∧
    (∃ (s : State) (lp : Lp), s.lps[s.cur]? = some lp ∧ lp.eax = Reg.of Leaf.l1F.selector ∧
      usesSubleaf .l1F = true ∧ lp.ecx.holds = false) ∧
    (∃ (s : State) (lp : Lp), s.lps[s.cur]? = some lp ∧ lp.eax = Reg.of 0x20 ∧
      ∀ L : Leaf, (0x20 : Word) ≠ L.selector) ∧
    (∃ (s : State) (lp : Lp), s.lps[s.cur]? = some lp ∧ lp.eax = Reg.of Leaf.l1F.selector ∧
      lp.ecx = Reg.of 0 ∧
      lp.effectiveMaxLeaf s.limitedMaxLeaf < Leaf.l1F.selector) ∧
    ∃ (s : State) (lp : Lp), s.lps[s.cur]? = some lp ∧ lp.eax = Reg.of Leaf.l1F.selector ∧
      lp.ecx = Reg.of 0xFFFFFFFF ∧
      Leaf.l1F.selector ≤ lp.effectiveMaxLeaf s.limitedMaxLeaf :=
  ⟨⟨withInputs [p1 5] none none, _, rfl, rfl⟩,
    ⟨withInputs [p1 5] (some 0x1F) none, _, rfl, rfl, rfl, rfl⟩,
    ⟨withInputs [p1 5] (some 0x20) none, _, rfl, rfl, not_selector (by decide)⟩,
    ⟨withInputs [withMax 0x1E 5] (some 0x1F) (some 0), _, rfl, rfl, rfl, by decide⟩,
    ⟨withInputs [p1 5] (some 0x1F) (some 0xFFFFFFFF), _, rfl, rfl, rfl, by decide⟩⟩

theorem witness_QueryRowIsCpuid : ∃ (s : State) (lp : Lp), s.lps[s.cur]? = some lp ∧
    lp.eax = Reg.of Leaf.l04.selector ∧ (usesSubleaf .l04 = true → lp.ecx = Reg.of 2) :=
  ⟨withInputs [p1 5] (some 4) (some 2), _, rfl, rfl, fun _ => rfl⟩

theorem witness_Leaf00Result : ∃ lp, (on [p4 5]).lps[(on [p4 5]).cur]? = some lp := ⟨_, rfl⟩

theorem witness_Leaf01Result :
    (∃ (s : State) (lp : Lp), s.lps[s.cur]? = some lp ∧
      lp.effectiveMaxLeaf s.limitedMaxLeaf < 1) ∧
    ∃ (s : State) (lp : Lp), s.lps[s.cur]? = some lp ∧ 1 ≤ lp.effectiveMaxLeaf s.limitedMaxLeaf :=
  ⟨⟨on [withMax 0 5], _, rfl, by decide⟩, on [withMax 1 5], _, rfl, by decide⟩

theorem witness_Leaf04Result :
    (∃ (s : State) (lp : Lp), s.lps[s.cur]? = some lp ∧
      lp.effectiveMaxLeaf s.limitedMaxLeaf < 4) ∧
    ∃ (s : State) (lp : Lp), s.lps[s.cur]? = some lp ∧ 4 ≤ lp.effectiveMaxLeaf s.limitedMaxLeaf :=
  ⟨⟨on [withMax 3 5], _, rfl, by decide⟩, on [withMax 4 5], _, rfl, by decide⟩

theorem witness_Leaf18Result :
    (∃ (s : State) (lp : Lp), s.lps[s.cur]? = some lp ∧
      lp.effectiveMaxLeaf s.limitedMaxLeaf < 0x18) ∧
    ∃ (s : State) (lp : Lp), s.lps[s.cur]? = some lp ∧ 0x18 ≤ lp.effectiveMaxLeaf s.limitedMaxLeaf :=
  ⟨⟨on [withMax 0x17 5], _, rfl, by decide⟩, on [withMax 0x18 5], _, rfl, by decide⟩

theorem witness_Leaf1FResult :
    (∃ (s : State) (lp : Lp), s.lps[s.cur]? = some lp ∧
      lp.effectiveMaxLeaf s.limitedMaxLeaf < 0x1F) ∧
    ∃ (s : State) (lp : Lp), s.lps[s.cur]? = some lp ∧
      0x1F ≤ lp.effectiveMaxLeaf s.limitedMaxLeaf ∧ lp.cfg.leaf1F.implemented = true :=
  ⟨⟨on [withMax 0x1E 5], _, rfl, by decide⟩, on [withMax 0x1F 5], _, rfl, by decide, by decide⟩

theorem witness_Leaf0BResult :
    (∃ (s : State) (lp : Lp), s.lps[s.cur]? = some lp ∧
      lp.effectiveMaxLeaf s.limitedMaxLeaf < 0x0B) ∧
    ∃ (s : State) (lp : Lp), s.lps[s.cur]? = some lp ∧
      0x0B ≤ lp.effectiveMaxLeaf s.limitedMaxLeaf ∧ lp.cfg.leaf0B.implemented = true :=
  ⟨⟨on [withMax 0x0A 5], _, rfl, by decide⟩, on [withMax 0x0B 5], _, rfl, by decide, by decide⟩

theorem witness_AbsentExtendedLeafResult : ∃ (s : State) (lp : Lp), s.lps[s.cur]? = some lp ∧
    0x1F ≤ lp.effectiveMaxLeaf s.limitedMaxLeaf ∧ lp.cfg.leaf1F.implemented = false ∧
    0x0B ≤ lp.effectiveMaxLeaf s.limitedMaxLeaf ∧ lp.cfg.leaf0B.implemented = false :=
  ⟨on [p6 5], _, rfl, by decide, by decide, by decide, by decide⟩

/-- Each clause at the lowest maximum that reaches its leaf and at the first invalid sub-leaf: 5, after
leaf 04H's Null entry at 4; 4, above leaf 18H's maximum 3, the hole at 2 and the Null sub-leaf 0; 2, after
the two of leaves 1FH and 0BH. -/
theorem witness_InvalidSubleavesReturnZeros :
    (∃ (s : State) (lp : Lp), s.lps[s.cur]? = some lp ∧
      LpConfigWf s.domainTypes s.limitedMaxLeaf lp.cfg ∧
      4 ≤ lp.effectiveMaxLeaf s.limitedMaxLeaf ∧ (4 : Word) < 5 ∧
      (lp.cfg.leaf04.at 4).cacheType = 0) ∧
    (∃ (s : State) (lp : Lp), s.lps[s.cur]? = some lp ∧
      LpConfigWf s.domainTypes s.limitedMaxLeaf lp.cfg ∧
      0x18 ≤ lp.effectiveMaxLeaf s.limitedMaxLeaf ∧ (lp.cfg.leaf18.at 0).maxSubleaf < 4 ∧
      ((2 : Word) ≠ 0 ∧ (lp.cfg.leaf18.at 2).tcType = 0) ∧ (lp.cfg.leaf18.at 0).tcType = 0) ∧
    (∃ (s : State) (lp : Lp), s.lps[s.cur]? = some lp ∧
      LpConfigWf s.domainTypes s.limitedMaxLeaf lp.cfg ∧
      0x1F ≤ lp.effectiveMaxLeaf s.limitedMaxLeaf ∧ lp.cfg.leaf1F.implemented = true ∧
      (2 : Word) ≤ 0x201 ∧ (lp.cfg.leaf1F.at 2).domainType = 0) ∧
    ∃ (s : State) (lp : Lp), s.lps[s.cur]? = some lp ∧
      LpConfigWf s.domainTypes s.limitedMaxLeaf lp.cfg ∧
      0x0B ≤ lp.effectiveMaxLeaf s.limitedMaxLeaf ∧ lp.cfg.leaf0B.implemented = true ∧
      (2 : Word) ≤ 2 ∧ (lp.cfg.leaf0B.at 2).domainType = 0 :=
  ⟨⟨on [withMax 4 5], _, rfl, withMax_wf 5 (by decide), by decide, by decide, by decide⟩,
    ⟨on [withMax 0x18 5], _, rfl, withMax_wf 5 (by decide), by decide, by decide, by decide, by decide⟩,
    ⟨on [withMax 0x1F 5], _, rfl, withMax_wf 5 (by decide), by decide, rfl, by decide, by decide⟩,
    ⟨on [withMax 0x0B 5], _, rfl, withMax_wf 5 (by decide), by decide, rfl, by decide, by decide⟩⟩

theorem witness_EffectiveMaximumLeaf : (Lp.boot (p4 5)).limitBit = true ∧
    (Lp.boot (p1 5)).limitBit = false ∧ (Lp.boot (noBit 5)).cfg.hasLimitBit = false ∧
    LpConfigWf dt 2 (Lp.boot (p4 5)).cfg := ⟨by decide, by decide, rfl, p4_wf 5⟩

theorem witness_CpuidFrame : isCpuid .cpuid01 = true ∧
    ∃ t, exec .cpuid01 (on [p1 5, p1 6]) = .next t := ⟨rfl, _, rfl⟩

theorem witness_QueryTwiceSameWords : ∃ t, exec (rowOf .l1F 1) (on [p1 5]) = .next t := ⟨_, rfl⟩

theorem witness_CpuidInEveryLayer : isCpuid (.cpuid18 3) = true ∧
    ∃ t, exec (.cpuid18 3) (on [p1 5]) = .next t := ⟨rfl, _, rfl⟩

theorem witness_LimitBitSteps :
    (∃ lp, (on [p4 5]).lps[(on [p4 5]).cur]? = some lp ∧ lp.cfg.hasLimitBit = true ∧
      lp.limitBit = true) ∧
    (∃ lp, (on [noBit 5]).lps[(on [noBit 5]).cur]? = some lp ∧ lp.cfg.hasLimitBit = false) ∧
    (on [p4 5]).layer ≠ .application ∧ (on [noBit 5]).layer ≠ .application :=
  ⟨⟨_, rfl, rfl, by decide⟩, ⟨_, rfl, rfl⟩, by decide, by decide⟩

theorem witness_ClearingRestoresFullReporting :
    (∃ lp, (on [p4 5]).lps[(on [p4 5]).cur]? = some lp ∧ lp.limitBit = true) ∧
    (on [p4 5]).layer ≠ .application := ⟨⟨_, rfl, by decide⟩, by decide⟩

theorem witness_LimitBitPrivilege : (∃ lp, (on [p4 5]).lps[(on [p4 5]).cur]? = some lp) ∧
    (on [p4 5]).layer = .os ∧ ({ on [p4 5] with layer := .bios } : State).layer = .bios ∧
    ({ on [p4 5] with layer := .application } : State).layer = .application :=
  ⟨⟨_, rfl⟩, rfl, rfl, rfl⟩

theorem witness_LimitBitFrame : (∃ t, exec (.rdmsr .limitBit) (on [p4 5, p4 6]) = .next t) ∧
    ∃ t, exec (.wrmsr .limitBit false) (on [p4 5, p4 6]) = .next t := ⟨⟨_, rfl⟩, _, rfl⟩

theorem witness_StartOfRun : Lp.boot (p4 5) ∈ (on [p4 5]).lps ∧
    (Lp.boot (p4 5)).cfg.hasLimitBit = true := ⟨List.mem_singleton.mpr rfl, rfl⟩

theorem witness_StepKeepsInvariant : Inv pairQuery ∧ ∃ t, step pairQuery = .next t :=
  ⟨pairQuery_inv, _, rfl⟩

theorem witness_InvariantAtReset :
    PlatformWf pair.lps pair.limitedMaxLeaf pair.domainTypes := pair_wf

theorem witness_ConfigurationConstant : ∃ t, Core.run core 1 pairQuery = .next t := ⟨_, rfl⟩

theorem witness_StepActsOnOneProcessor : ∃ p rest t, pairQuery.queue = p :: rest ∧
    step pairQuery = .next t ∧ p.on = some 1 ∧ 0 ≠ t.cur := ⟨_, _, _, rfl, rfl, rfl, by decide⟩

theorem witness_OnlyPrivilegedWriteChangesMsr :
    ∃ (s t : State) (lp lp' : Lp), step s = .next t ∧ s.lps[0]? = some lp ∧ t.lps[0]? = some lp' ∧
      lp'.miscEnables ≠ lp.miscEnables :=
  ⟨lines [p4 5] 0 [.code (encode (.wrmsr .limitBit false))], _, _, _, rfl, rfl, rfl, by decide⟩

theorem witness_NoProcessorReadsAnother : ∃ s s' t : State,
    s'.lps[s'.cur]? = s.lps[s.cur]? ∧ s'.limitedMaxLeaf = s.limitedMaxLeaf ∧ s'.layer = s.layer ∧
    exec (.rdmsr .limitBit) s = .next t ∧ s'.lps[1]? ≠ s.lps[1]? :=
  ⟨on [p4 5, p4 6], on [p4 5, p4 7], _, rfl, rfl, rfl, rfl, by decide⟩

theorem witness_DifferentProcessorsCommute : ∃ s s1 s2 : State, 0 ≠ 1 ∧
    exec (.wrmsr .limitBit false) { s with cur := 0, layer := .os } = .next s1 ∧
    exec .cpuid00 { s1 with cur := 1, layer := .application } = .next s2 :=
  ⟨on [p4 5, p4 6], _, _, by decide, rfl, rfl⟩

theorem witness_RunOnQuery : ∃ (s : State) (lp : Lp), s.queue = [] ∧ s.lps[1]? = some lp ∧
    Leaf.l1F.selector ≤ lp.effectiveMaxLeaf s.limitedMaxLeaf :=
  ⟨on [p1 20, p1 21], _, rfl, rfl, by decide⟩

theorem witness_UnboundStepRunsSomewhere :
    ∃ (s : State) (p : Pending) (rest : List Pending), s.lps ≠ [] ∧ s.queue = p :: rest ∧
    p.on = none := ⟨(on [p1 5]).runUnbound .os [cpuidLine], _, _, by decide, rfl, rfl⟩

theorem witness_RoundsUpToPowerOfTwo : (1 : Word) ≤ 1 ∧ (1 : Word) ≤ 0x80000000 ∧
    (0x80000000 : Word) ≤ 0x80000000 := by decide

theorem witness_ThreeMasksMakeUpTheId : (0 : BitVec 5) ≤ 0 ∧ (1 : BitVec 5) ≤ 4 ∧
    (31 : BitVec 5) ≤ 31 := by decide

theorem witness_SubIdsIdentify : (0 : BitVec 5) ≤ 0 ∧ (1 : BitVec 5) ≤ 4 ∧
    (31 : BitVec 5) ≤ 31 := by decide

theorem witness_WidthReservesSubIds : (0 : BitVec 5) ≤ 31 ∧
    2 ^ 31 - 1 < 2 ^ ((31 : BitVec 5).toNat - (0 : BitVec 5).toNat) ∧ (4 : BitVec 5) ≤ 4 ∧
    0 < 2 ^ ((4 : BitVec 5).toNat - (4 : BitVec 5).toNat) := by decide

theorem witness_ThreeDomainShiftsOfWellFormed : ExtendedWf dt exampleC 4 :=
  exampleC_wf

theorem witness_TwoKnownDomainsGiveThreeDomainView : ExtendedWf dt exampleC 4 :=
  exampleC_wf

theorem witness_CoreShiftSameForAllKnown : ExtendedWf dt exampleC 4 ∧ KnownWf dt [1, 2] ∧
    KnownWf dt [1, 2, 5] := ⟨exampleC_wf, by decide, by decide⟩

theorem witness_KnownDomainFieldsLeaveNoGap : ExtendedWf dt exampleC 4 :=
  exampleC_wf

theorem witness_AgreeingLeavesGiveSameShifts :
    let q := extendedWords (Config.resetExtended 5) 5
    ExtendedWf dt q 2 ∧ Leaf0BAgrees q q 2 := ⟨extended_wf 5 5, rfl, rfl, fun _ => rfl⟩

theorem witness_UniformShiftsOnEveryProcessor :
    PlatformWf pair.lps pair.limitedMaxLeaf pair.domainTypes ∧ UniformShifts pair.lps ∧
    p1 20 ∈ pair.lps ∧ p1 21 ∈ pair.lps ∧
    (reports (p1 20) .l1F ∧ reports (p1 21) .l1F ∧
      (p1 20).leaf1F.implemented = true ∧ (p1 21).leaf1F.implemented = true) ∧
    reports (p1 20) .l0B ∧ reports (p1 21) .l0B ∧
    (p1 20).leaf0B.implemented = true ∧ (p1 21).leaf0B.implemented = true :=
  ⟨pair_wf, pair_uniform, by simp [pair], by simp [pair], by decide, by decide, by decide, rfl, rfl⟩

/-- Neither extended leaf exists, and the maximum leaf is `m`. -/
def legacyAt (m : Word) : Bool :=
  let lp := Lp.boot (withMax m 5)
  !lp.leafExists 2 .l1F && !lp.leafExists 2 .l0B && lp.effectiveMaxLeaf 2 == m

/-- Each case of the choice, the last three at the boundary values 4, 1 and 0 of the maximum leaf. -/
theorem witness_MethodPreference : (Lp.boot (p1 5)).leafExists 2 .l1F = true ∧
    ((Lp.boot (p5 5)).leafExists 2 .l1F = false ∧ (Lp.boot (p5 5)).leafExists 2 .l0B = true) ∧
    legacyAt 4 = true ∧ legacyAt 1 = true ∧ legacyAt 0 = true := by decide

/-- Both branches: LIMITED_MAX_LEAF 0 and the least value above it. -/
theorem witness_LimitedReportingForcesLegacy : (Lp.boot (p4 5)).limitBit = true ∧
    (Lp.boot (p4 5)).chooseMethod 0 = .error .noCpuidApicId ∧
    (Lp.boot (p4 5)).chooseMethod 1 = .ok .legacy01Only := by decide

theorem witness_QueriedIdIsTheId :
    (LpConfigWf dt 2 (Lp.boot (p1 5)).cfg ∧ 1 ≤ (Lp.boot (p1 5)).effectiveMaxLeaf 2 ∧
      (Lp.boot (p1 5)).leafExists 2 .l1F = true ∧ (Lp.boot (p1 5)).leafExists 2 .l0B = true) ∧
    (LpConfigWf dt 2 (Lp.boot (p4 5)).cfg ∧ 1 ≤ (Lp.boot (p4 5)).effectiveMaxLeaf 2 ∧
      (Lp.boot (p4 5)).hasX2apicId 2 = false) :=
  ⟨⟨p1_wf 5, by decide, by decide, by decide⟩, p4_wf 5, by decide, by decide⟩

theorem witness_CachesOfWellFormed : CachesWf (p1 5).leaf04.at 4 := caches_wf 5

theorem witness_CacheSharingIsEquivalence :
    let r : Words := ⟨0x1C03C163, 0x03C0003F, 0x3FFF, 6⟩
    ((3 : Word), r) ∈ cachesOf (p1 5).leaf04.at ∧
      sharesCache r 5 6 (cachesOf (p1 6).leaf04.at) = true ∧
      sharesCache r 6 7 (cachesOf (p1 7).leaf04.at) = true := by decide

theorem witness_TlbSharingIgnoresEax :
    let r : Words := ⟨0, 0x0008000B, 0x80, 0x4043⟩
    ((3 : Word), r) ∈ tlbsOf (p1 20).leaf18.at ∧
      sharesTlb r 20 21 (tlbsOf (p1 21).leaf18.at) = true := by decide

theorem witness_LegacyMasksMakeUpTheId : ∃ m, masksOfCounts 5 (maxLpIdsPerPackage true 255)
    (maxCoreIdsPerPackage (some 63)) = .ok m := ⟨⟨5, 0x03, 0xFC, 2, 0x00, 8⟩, by decide⟩

theorem witness_LegacyRefusesMalformedCounts :
    maxLpIdsPerPackage true 4 < maxCoreIdsPerPackage (some 7) ∧
    ((true = false ∨ (0 : Byte) = 0) ∧ maxCoreIdsPerPackage none = 1 ∧
      maxCoreIdsPerPackage (some 0) = 1) ∧
    LegacyConsistent (p2lp 5).leaf01 ((p2lp 5).leaf04.at 0) ∧ (p2lp 5).leaf01.htt = true ∧
    (p2lp 5).leaf01.maxLpIds ≠ 0 ∧
    WfLegacy [p2lp 5] ∧ (Lp.boot (p2lp 5)).cfg ∈ [p2lp 5] ∧ ¬supportsX2apic (p2lp 5) ∧
    1 ≤ (Lp.boot (p2lp 5)).effectiveMaxLeaf 2 :=
  ⟨by decide, by decide, fun _ _ _ => by decide, by decide, by decide,
    fun c hc _ _ => List.mem_singleton.mp hc ▸ fun _ _ _ => by decide,
    List.mem_singleton.mpr rfl, by decide, by decide⟩

end Sys2Proof.Tests
end

section
/-! PROOFS. Rounding up to a power of two (00_scope.md R14, R15): the exponent of `p2 x` is `Nat.clog 2`
of `x`, so the library's lemmas about `Nat.clog` say what `P2` answers. -/

namespace Sys2Proof.Proofs

/-- The number `v` of R14. For `x = 2^31` the product wraps to 0 and the difference wraps back. -/
theorem toNat_mul_two_sub_one {x : Word} (hpos : 1 ≤ x) (hle : x ≤ 0x80000000) :
    (x * 2 - 1).toNat = 2 * x.toNat - 1 := by
  bv_omega

/-- The highest set bit of `2n - 1` is where `n` rounds up to: both exponents are at most `j` exactly
when `n ≤ 2 ^ j`. -/
theorem log2_two_mul_sub_one {n : Nat} (hpos : 1 ≤ n) : (2 * n - 1).log2 = Nat.clog 2 n := by
  refine eq_of_forall_ge_iff fun j => ?_
  calc (2 * n - 1).log2 ≤ j
    _ ↔ 2 * n - 1 < 2 ^ (j + 1) := by rw [← Nat.log2_lt (by omega), Nat.lt_succ_iff]
    _ ↔ n ≤ 2 ^ j := by rw [Nat.pow_succ]; omega
    _ ↔ Nat.clog 2 n ≤ j := (Nat.clog_le_iff_le_pow one_lt_two).symm

theorem toNat_one_shiftLeft {k : Nat} (hk : k ≤ 31) : ((1 : Word) <<< k).toNat = 2 ^ k :=
  BitVec.toNat_twoPow_of_lt (w := 32) (by omega)

theorem clog_toNat_le {x : Word} (hle : x ≤ 0x80000000) : Nat.clog 2 x.toNat ≤ 31 :=
  Nat.clog_le_of_le_pow hle

theorem p2_toNat {x : Word} (hpos : 1 ≤ x) (hle : x ≤ 0x80000000) :
    (p2 x).toNat = 2 ^ Nat.clog 2 x.toNat := by
  rw [p2, toNat_mul_two_sub_one hpos hle, log2_two_mul_sub_one hpos,
    toNat_one_shiftLeft (clog_toNat_le hle)]

theorem log2Of_of_toNat {p : Word} {k : Nat} (h : p.toNat = 2 ^ k) : log2Of p = k := by
  rw [log2Of, h, Nat.log2_two_pow]

/-- Settles O39: `p2 x` is 2 to the power `Nat.clog 2 x`, the least exponent that reaches `x`. -/
theorem roundsUpToPowerOfTwo : Obligations.RoundsUpToPowerOfTwo := by
  intro x hpos hle
  have hp2 : (p2 x).toNat = 2 ^ Nat.clog 2 x.toNat := p2_toNat hpos hle
  refine ⟨_, clog_toNat_le hle, hp2, log2Of_of_toNat hp2, ?notSmaller, ?least⟩
  case notSmaller =>
    rw [BitVec.le_def, hp2]
    exact Nat.le_pow_clog one_lt_two _
  case least =>
    intro j hj
    exact Nat.pow_le_pow_right two_pos (Nat.clog_le_of_le_pow hj)

end Sys2Proof.Proofs
end

section
/-! PROOFS. What a step and a run of the machine do to the state (10_state.md R23, R29,
60_exceptions.md R250): a step issues the line at the head of the pending list, a CPUID instruction
writes the four registers of the current logical processor, and nothing writes the configuration. -/

namespace Sys2Proof.Proofs

open Sys2Proof.Machine

/-! ### A step runs the line at the head of the pending list -/

theorem step_of_queue {s : State} {p : Pending} {rest : List Pending} (h : s.queue = p :: rest) :
    step s = runLine p.line (s.issue p rest) := by
  simp only [step, h]

theorem runLine_code {c : Code} {i : Instr} (h : decode c = .ok i) (s : State) :
    runLine (.code c) s = exec i s := by
  simp only [runLine, h]

/-- A bound step runs on the logical processor it is bound to and uses up no choice of the host. -/
theorem issue_of_bound (s : State) {p : Pending} {k : Nat} (h : p.on = some k)
    (rest : List Pending) :
    (s.issue p rest).cur = k ∧ (s.issue p rest).freeCount = s.freeCount := by
  simp [State.issue, State.lpOf, h]

/-- Settles O5: `step` at a nonempty pending list is `runLine`, which at a code that decodes is
`exec`. -/
theorem stepRunsDecodedInstruction : Obligations.StepRunsDecodedInstruction := by
  intro s p rest c i hqueue hline hdecode
  have hstep : step s = exec i (s.issue p rest) := by
    rw [step_of_queue hqueue, hline, runLine_code hdecode]
  exact ⟨hstep, issue_lps s p rest, issue_queue s p rest, issue_layer s p rest,
    issue_readBit s p rest, issue_vars s p rest, issue_limitedMaxLeaf s p rest,
    issue_domainTypes s p rest, fun _ hon => issue_of_bound s hon rest⟩

/-! ### The frame of the CPUID instructions -/

/-- All that a completed CPUID instruction did: it put four words into the registers of the current
logical processor. -/
theorem exec_next_of_isCpuid {s t : State} {i : Instr} (hi : isCpuid i = true)
    (h : exec i s = .next t) :
    ∃ lp w, s.lps[s.cur]? = some lp ∧ t = s.setLp s.cur (lp.withResults w) := by
  obtain ⟨lp, hlp, ⟨L, n, -, rfl, -⟩ | ⟨v, rfl, -⟩ | ⟨rfl, -⟩⟩ := exec_next h
  · exact ⟨lp, _, hlp, rfl⟩
  · cases hi
  · cases hi

theorem setLp_getElem?_self {s : State} {k : Nat} {lp : Lp} (h : s.lps[k]? = some lp) (lp' : Lp) :
    (s.setLp k lp').lps[k]? = some lp' :=
  List.getElem?_set_self (List.getElem?_eq_some_iff.mp h).1

theorem setLp_getElem?_ne (s : State) {j k : Nat} (h : k ≠ j) (lp : Lp) :
    (s.setLp j lp).lps[k]? = s.lps[k]? :=
  List.getElem?_set_ne h.symm

/-- Settles O21: a completed CPUID instruction replaces the current logical processor by itself with
four results in its registers, which leaves its other fields, and those of the state, as they are. -/
theorem cpuidFrame : Obligations.CpuidFrame := by
  intro s t i hi h
  obtain ⟨lp, w, hlp, rfl⟩ := exec_next_of_isCpuid hi h
  have hcur : ∃ lp₀ lp', s.lps[s.cur]? = some lp₀ ∧
      (s.setLp s.cur (lp.withResults w)).lps[s.cur]? = some lp' ∧
      lp'.cfg = lp₀.cfg ∧ lp'.miscEnables = lp₀.miscEnables ∧
      lp'.eax.holds = true ∧ lp'.ebx.holds = true ∧ lp'.ecx.holds = true ∧ lp'.edx.holds = true :=
    ⟨lp, _, hlp, setLp_getElem?_self hlp _, by simp⟩
  exact ⟨hcur, fun k hk => setLp_getElem?_ne s hk _, by simp⟩

/-! ### The configuration along a run -/

/-- The configuration of a platform (10 R29), which is data of the state, is the same in
both states. -/
def SameConfiguration (s t : State) : Prop :=
  t.lps.map Lp.cfg = s.lps.map Lp.cfg ∧ t.limitedMaxLeaf = s.limitedMaxLeaf ∧
    t.domainTypes = s.domainTypes

theorem SameConfiguration.refl (s : State) : SameConfiguration s s := ⟨rfl, rfl, rfl⟩

theorem SameConfiguration.trans {s t u : State} (hst : SameConfiguration s t)
    (htu : SameConfiguration t u) : SameConfiguration s u := by
  obtain ⟨hlps, hlimited, htypes⟩ := hst
  obtain ⟨hlps', hlimited', htypes'⟩ := htu
  exact ⟨hlps'.trans hlps, hlimited'.trans hlimited, htypes'.trans htypes⟩

theorem step_sameConfiguration {s t : State} (h : step s = .next t) : SameConfiguration s t := by
  obtain ⟨p, rest, -, hline⟩ := step_next h
  obtain ⟨lp, lp', hlp, hlps, hcfg, hlimited, htypes, -⟩ := runLine_frame hline
  refine ⟨?_, hlimited, htypes⟩
  rw [hlps]
  exact map_cfg_set hlp hcfg

/-- All that a completed run of one more step did: a step, and then the rest of the run. -/
theorem run_succ_next {k : Nat} {s t : State}
    (h : Host.Core.run core (k + 1) s = .next t) :
    ∃ u, step s = .next u ∧ Host.Core.run core k u = .next t := by
  simp only [Host.Core.run] at h
  split at h
  · exact ⟨_, ‹_›, h⟩
  · cases h
  · cases h

/-- What every completed step keeps, a completed run keeps. -/
theorem run_preserves {P : State → Prop} (hstep : ∀ s t, P s → step s = .next t → P t) :
    ∀ {k : Nat} {s t : State}, P s → Host.Core.run core k s = .next t → P t
  | 0, _, _, hs, h => by
    cases h
    exact hs
  | _ + 1, s, _, hs, h => by
    obtain ⟨u, hu, hrun⟩ := run_succ_next h
    exact run_preserves hstep (hstep s u hs hu) hrun

/-- Settles O32: that the configuration is the one of the first state is kept by every step. -/
theorem configurationConstant : Obligations.ConfigurationConstant := by
  intro k s t h
  have hkept : ∀ u v, SameConfiguration s u → step u = .next v → SameConfiguration s v :=
    fun _ _ hu hv => hu.trans (step_sameConfiguration hv)
  exact run_preserves hkept (SameConfiguration.refl s) h

end Sys2Proof.Proofs
end

section
/-! PROOFS. Uniform shifts (10_state.md R30): the three-domain extraction (41 R150) reads of a sub-leaf
its shift, its domain type and whether EBX is 0. The first two are uniform by assumption; the third is
too, since on a well-formed leaf EBX is 0 exactly where the domain type is. -/

namespace Sys2Proof.Proofs

open Sys2Proof.Machine

theorem numLp_of_ebx_eq_zero {w : Words} (h : w.ebx = 0) : w.numLp = 0 := by
  rw [Words.numLp, h]
  rfl

/-- Software's test for the end of an extended leaf (41 R150) and the leaf's own mark of an invalid
sub-leaf (41 R141) agree on a well-formed leaf. -/
theorem ebx_eq_zero_iff_domainType {dt : DomainTypes} {q : Word → Words} {valid : Nat}
    (hwf : ExtendedWf dt q valid) (n : Word) : (q n).ebx = 0 ↔ (q n).domainType = 0 := by
  by_cases hn : n.toNat < valid
  · have hebx : (q n).ebx ≠ 0 := fun h => by
      have hcount : 1 ≤ (q n).numLp := hwf.counted n hn
      rw [numLp_of_ebx_eq_zero h] at hcount
      exact absurd hcount (by decide)
    exact iff_of_false hebx ((hwf.validity n).mpr hn)
  · have hebx : (q n).ebx = 0 := (hwf.invalid n (not_lt.mp hn)).2
    exact iff_of_true hebx (not_not.mp (mt (hwf.validity n).mp hn))

/-- The sub-leaves of `q` and `r` carry the same shifts and the same domain types. -/
def SameShiftsAndTypes (q r : Word → Words) : Prop :=
  ∀ n, (q n).shift = (r n).shift ∧ (q n).domainType = (r n).domainType

theorem SameShiftsAndTypes.ebx_eq_zero_iff {dt : DomainTypes} {q r : Word → Words} {j k : Nat}
    (h : SameShiftsAndTypes q r) (hq : ExtendedWf dt q j) (hr : ExtendedWf dt r k) (n : Word) :
    (q n).ebx = 0 ↔ (r n).ebx = 0 := by
  rw [ebx_eq_zero_iff_domainType hq, ebx_eq_zero_iff_domainType hr, (h n).2]

theorem threeDomainLoop_congr {q r : Word → Words} (h : SameShiftsAndTypes q r)
    (hebx : ∀ n, (q n).ebx = 0 ↔ (r n).ebx = 0) (lpType : Byte) (turns : Nat) (n : Word)
    (coreShift : BitVec 5) :
    threeDomainLoop lpType q turns n coreShift = threeDomainLoop lpType r turns n coreShift := by
  induction turns generalizing n coreShift with
  | zero => rfl
  | succ turns ih =>
    obtain ⟨hshift, htype⟩ := h n
    simp only [threeDomainLoop, hebx n, hshift, htype, ih]

theorem threeDomainShifts_congr {dt : DomainTypes} {q r : Word → Words} {j k : Nat}
    (h : SameShiftsAndTypes q r) (hq : ExtendedWf dt q j) (hr : ExtendedWf dt r k) :
    threeDomainShifts dt q = threeDomainShifts dt r := by
  have hloop := threeDomainLoop_congr h (h.ebx_eq_zero_iff hq hr) dt.lp 255 1
  simp only [threeDomainShifts, hloop, (h 0).1]

theorem sameShiftsAndTypes_leaf1F {cs : List LpConfig} {c d : LpConfig} (h : UniformShifts cs)
    (hc : c ∈ cs) (hd : d ∈ cs) :
    SameShiftsAndTypes (extendedWords c.leaf1F c.x2apicId) (extendedWords d.leaf1F d.x2apicId) :=
  fun n => (h c hc d hd n).1

theorem sameShiftsAndTypes_leaf0B {cs : List LpConfig} {c d : LpConfig} (h : UniformShifts cs)
    (hc : c ∈ cs) (hd : d ∈ cs) :
    SameShiftsAndTypes (extendedWords c.leaf0B c.x2apicId) (extendedWords d.leaf0B d.x2apicId) :=
  fun n => (h c hc d hd n).2

/-- Settles O49: well-formed leaves with the same shifts and types give the same two shifts. -/
theorem uniformShiftsOnEveryProcessor : Obligations.UniformShiftsOnEveryProcessor := by
  intro dt limited cs c d hwf huniform hc hd
  have hcWf : LpConfigWf dt limited c := hwf.each c hc
  have hdWf : LpConfigWf dt limited d := hwf.each d hd
  refine ⟨fun hcReports hdReports hcImpl hdImpl => ?leaf1F,
    fun hcReports hdReports hcImpl hdImpl => ?leaf0B⟩
  case leaf1F =>
    obtain ⟨_, hcLeaf⟩ := hcWf.leaf1F hcReports hcImpl
    obtain ⟨_, hdLeaf⟩ := hdWf.leaf1F hdReports hdImpl
    exact threeDomainShifts_congr (sameShiftsAndTypes_leaf1F huniform hc hd) hcLeaf hdLeaf
  case leaf0B =>
    exact threeDomainShifts_congr (sameShiftsAndTypes_leaf0B huniform hc hd)
      (hcWf.leaf0B hcReports hcImpl) (hdWf.leaf0B hdReports hdImpl)

end Sys2Proof.Proofs
end

section
/-! PROOFS. A query made again (20_memory.md R51) and steps on different logical processors (20 R61,
92_eei_decisions.md D14). What CPUID returns is read from the configuration and the limit bit, which no
query writes; and what a completed instruction makes of the current logical processor is read from that
processor, the layer of the agent and LIMITED_MAX_LEAF alone. -/

namespace Sys2Proof.Proofs

open Sys2Proof.Machine

/-! ### What a query reads -/

theorem query_of_not_usesSubleaf {L : Leaf} (h : usesSubleaf L = false) (n m : Word) (s : State) :
    query L n s = query L m s := by
  cases L with
  | l00 | l01 => rfl
  | l04 | l0B | l18 | l1F => cases h

theorem exec_rowOf (L : Leaf) (n : Word) (s : State) : exec (rowOf L n) s = query L n s := by
  cases L with
  | l00 => exact query_of_not_usesSubleaf (L := .l00) rfl 0 n s
  | l01 => exact query_of_not_usesSubleaf (L := .l01) rfl 0 n s
  | l04 | l0B | l18 | l1F => rfl

@[simp] theorem effectiveMaxLeaf_withResults (lp : Lp) (w : Words) (limited : Fin 4) :
    (lp.withResults w).effectiveMaxLeaf limited = lp.effectiveMaxLeaf limited := rfl

@[simp] theorem leafWords_withResults (lp : Lp) (w : Words) (limited : Fin 4) (L : Leaf) (n : Word) :
    (lp.withResults w).leafWords limited L n = lp.leafWords limited L n := by
  cases L <;> rfl

theorem setLp_of_getElem? {s : State} {k : Nat} {lp : Lp} (h : s.lps[k]? = some lp) :
    s.setLp k lp = s := by
  rw [State.setLp, set_same h]

/-- Settles O22: the first query leaves its results in the registers and changes nothing the second
reads, so the second writes the same results over themselves. -/
theorem queryTwiceSameWords : Obligations.QueryTwiceSameWords := by
  intro s t L n h
  rw [exec_rowOf] at h ⊢
  obtain ⟨lp, hlp, hmax, ht⟩ := query_next h
  have hself : t.lps[t.cur]? = some (lp.withResults (lp.leafWords s.limitedMaxLeaf L n)) := by
    rw [ht]
    exact setLp_getElem?_self hlp _
  have hlimited : t.limitedMaxLeaf = s.limitedMaxLeaf := by rw [ht, setLp_limitedMaxLeaf]
  rw [query_of n hself (by rwa [hlimited, effectiveMaxLeaf_withResults]), hlimited,
    leafWords_withResults, withResults_withResults, setLp_of_getElem? hself]

/-! ### What a completed instruction reads -/

/-- CPUID is the query of the leaf and sub-leaf its registers hold. -/
theorem execCpuid_eq_query {s : State} {lp : Lp} {L : Leaf} {n : Word}
    (hlp : s.lps[s.cur]? = some lp) (heax : lp.eax.read = some L.selector)
    (hecx : usesSubleaf L = true → lp.ecx.read = some n) : execCpuid s = query L n s := by
  cases hL : usesSubleaf L with
  | false =>
    rw [query_of_not_usesSubleaf hL n 0]
    simp [execCpuid, onCur_of hlp, heax, hL]
  | true => simp [execCpuid, onCur_of hlp, heax, hL, hecx hL]

/-- A completed instruction that is no MSR step is one query, the same in every state with this current
logical processor. -/
theorem exec_eq_query {s t : State} {i : Instr} (h : exec i s = .next t)
    (hwrmsr : ∀ x v, i ≠ .wrmsr x v) (hrdmsr : ∀ x, i ≠ .rdmsr x) :
    ∃ L n, ∀ u : State, u.lps[u.cur]? = s.lps[s.cur]? → exec i u = query L n u := by
  cases i with
  | cpuid =>
    obtain ⟨L, n, -, lp, hlp, heax, hecx⟩ := execCpuid_next h
    exact ⟨L, n, fun u hu => execCpuid_eq_query (hu.trans hlp) heax hecx⟩
  | cpuid00 => exact ⟨.l00, 0, fun _ _ => rfl⟩
  | cpuid01 => exact ⟨.l01, 0, fun _ _ => rfl⟩
  | cpuid04 n => exact ⟨.l04, n, fun _ _ => rfl⟩
  | cpuid0B n => exact ⟨.l0B, n, fun _ _ => rfl⟩
  | cpuid18 n => exact ⟨.l18, n, fun _ _ => rfl⟩
  | cpuid1F n => exact ⟨.l1F, n, fun _ _ => rfl⟩
  | wrmsr x v => exact absurd rfl (hwrmsr x v)
  | rdmsr x => exact absurd rfl (hrdmsr x)
  | wbinvd | invd | clflush | clflushopt => cases h

theorem execWrmsr_of {s : State} {lp : Lp} (v : Bool) (hlayer : s.layer.mayAccessMsr = true)
    (hlp : s.lps[s.cur]? = some lp) :
    execWrmsr .limitBit v s = .next (s.setLp s.cur (lp.setLimitBit v)) := by
  simp [execWrmsr, msrAccess, hlayer, onCur_of hlp]

theorem execRdmsr_of {s : State} {lp : Lp} (hlayer : s.layer.mayAccessMsr = true)
    (hlp : s.lps[s.cur]? = some lp) :
    execRdmsr .limitBit s = .next { s with readBit := lp.limitBit } := by
  simp [execRdmsr, msrAccess, hlayer, onCur_of hlp]

/-- `i`, issued by an agent of `layer` on a platform with LIMITED_MAX_LEAF `limited`, completes on every
logical processor that is as `lp` and turns it into `lp'`, whatever the rest of the state. -/
def Turns (i : Instr) (layer : Layer) (limited : Fin 4) (lp lp' : Lp) : Prop :=
  ∀ s : State, s.lps[s.cur]? = some lp → s.layer = layer → s.limitedMaxLeaf = limited →
    ∃ t, exec i s = .next t ∧ t.lps = s.lps.set s.cur lp' ∧ t.limitedMaxLeaf = limited

theorem turns_of_query {i : Instr} {layer : Layer} {limited : Fin 4} {lp : Lp} {L : Leaf} {n : Word}
    (hexec : ∀ u : State, u.lps[u.cur]? = some lp → exec i u = query L n u)
    (hmax : L.selector ≤ lp.effectiveMaxLeaf limited) :
    Turns i layer limited lp (lp.withResults (lp.leafWords limited L n)) := by
  rintro s hlp - rfl
  exact ⟨_, (hexec s hlp).trans (query_of n hlp hmax), rfl, rfl⟩

theorem turns_wrmsr {layer : Layer} (limited : Fin 4) (lp : Lp) (v : Bool)
    (hlayer : layer.mayAccessMsr = true) :
    Turns (.wrmsr .limitBit v) layer limited lp (lp.setLimitBit v) := by
  rintro s hlp rfl rfl
  exact ⟨_, execWrmsr_of v hlayer hlp, rfl, rfl⟩

theorem turns_rdmsr {layer : Layer} (limited : Fin 4) (lp : Lp)
    (hlayer : layer.mayAccessMsr = true) : Turns (.rdmsr .limitBit) layer limited lp lp := by
  rintro s hlp rfl rfl
  exact ⟨_, execRdmsr_of hlayer hlp, (set_same hlp).symm, rfl⟩

/-- What a completed instruction made of the current logical processor, it makes of it everywhere. -/
theorem exec_next_turns {s t : State} {i : Instr} (h : exec i s = .next t) :
    ∃ lp lp', s.lps[s.cur]? = some lp ∧ Turns i s.layer s.limitedMaxLeaf lp lp' := by
  obtain ⟨lp, hlp, ⟨-, -, -, -, hwrmsr, hrdmsr⟩ | ⟨v, rfl, hlayer, -⟩ | ⟨rfl, hlayer, -⟩⟩ :=
    exec_next h
  · obtain ⟨L, n, hexec⟩ := exec_eq_query h hwrmsr hrdmsr
    obtain ⟨lq, hlq, hmax, -⟩ := query_next ((hexec s rfl).symm.trans h)
    exact ⟨lq, _, hlq, turns_of_query (fun u hu => hexec u (hu.trans hlq.symm)) hmax⟩
  · exact ⟨lp, _, hlp, turns_wrmsr _ lp v hlayer⟩
  · exact ⟨lp, lp, hlp, turns_rdmsr _ lp hlayer⟩

/-- `Turns` decides the logical processors after a completed instruction. -/
theorem Turns.of_next {i : Instr} {s t : State} {lp lp' : Lp}
    (hturns : Turns i s.layer s.limitedMaxLeaf lp lp') (hlp : s.lps[s.cur]? = some lp)
    (h : exec i s = .next t) :
    t.lps = s.lps.set s.cur lp' ∧ t.limitedMaxLeaf = s.limitedMaxLeaf := by
  obtain ⟨u, hu, hlps, hlimited⟩ := hturns s hlp rfl rfl
  cases h.symm.trans hu
  exact ⟨hlps, hlimited⟩

/-- Settles O36: each instruction finds its logical processor the same in either order, so it turns it
into the same, and replacing two different elements of a list commutes. -/
theorem differentProcessorsCommute : Obligations.DifferentProcessorsCommute := by
  intro s s1 s2 i j k m a b hkm h1 h2
  obtain ⟨p, p', hp, hi⟩ := exec_next_turns h1
  obtain ⟨hlps1, hlimited1⟩ := hi.of_next hp h1
  obtain ⟨q, q', hq, hj⟩ := exec_next_turns h2
  obtain ⟨hlps2, -⟩ := hj.of_next hq h2
  dsimp only at hp hq hi hj hlps1 hlps2 hlimited1
  rw [hlimited1] at hj
  have hqFirst : s.lps[m]? = some q := by rwa [hlps1, List.getElem?_set_ne hkm] at hq
  obtain ⟨t1, ht1, hlps, hlimited⟩ := hj { s with cur := m, layer := b } hqFirst rfl rfl
  have hpSecond : t1.lps[k]? = some p := by rwa [hlps, List.getElem?_set_ne hkm.symm]
  obtain ⟨t2, ht2, hlps', -⟩ := hi { t1 with cur := k, layer := a } hpSecond rfl hlimited
  refine ⟨t1, t2, ht1, ht2, ?_⟩
  calc t2.lps = (s.lps.set m q').set k p' := by rw [hlps', hlps]
    _ = (s.lps.set k p').set m q' := List.set_comm _ _ hkm.symm
    _ = s2.lps := by rw [hlps2, hlps1]

end Sys2Proof.Proofs
end

section
/-! PROOFS. The decoder (30_encoding.md R71, R80, R84, R85). Byte codes are read byte by byte, so one
walk through the parsers (`ParsesAfter`) says both what a successful parse has read and what a failed one
means; selector pairs are read by `Leaf.ofWord`. -/

namespace Sys2Proof.Proofs

open Sys2Proof.Machine

/-! ### Decoding an encoding -/

/-- Settles O2: one lemma per constructor, which reads the bytes or the selector pair of `encode` back. -/
theorem decodeEncodeAgree : Obligations.DecodeEncodeAgree := by
  intro i
  cases i with
  | cpuid => exact Laws.DecodeEncode.cpuid
  | cpuid00 => exact Laws.DecodeEncode.cpuid00
  | cpuid01 => exact Laws.DecodeEncode.cpuid01
  | cpuid04 n => exact Laws.DecodeEncode.cpuid04 n
  | cpuid0B n => exact Laws.DecodeEncode.cpuid0B n
  | cpuid18 n => exact Laws.DecodeEncode.cpuid18 n
  | cpuid1F n => exact Laws.DecodeEncode.cpuid1F n
  | wrmsr t v => exact Laws.DecodeEncode.wrmsr t v
  | rdmsr t => exact Laws.DecodeEncode.rdmsr t
  | wbinvd => exact Laws.DecodeEncode.wbinvd
  | invd => exact Laws.DecodeEncode.invd
  | clflush m rm => exact Laws.DecodeEncode.clflush m rm
  | clflushopt m rm => exact Laws.DecodeEncode.clflushopt m rm

/-! ### Operand bytes -/

theorem wellFormed_msrTargetOfByte (b : Byte) : (msrTargetOfByte b).wellFormed = true := by
  unfold msrTargetOfByte
  split
  · rfl
  · simpa [MsrTarget.wellFormed] using ‹b ≠ 0›

theorem byteOfMsrTarget_msrTargetOfByte (b : Byte) : byteOfMsrTarget (msrTargetOfByte b) = b := by
  unfold msrTargetOfByte
  split
  · exact Eq.symm ‹b = 0›
  · rfl

/-- A ModR/M byte with reg field 7 is made of its other two fields. -/
theorem flushOperandByte_of_fields {modrm : Byte} (h : modrm.extractLsb' 3 3 = 7) :
    flushOperandByte (modrm.extractLsb' 6 2) (modrm.extractLsb' 0 3) = modrm := by
  revert modrm
  decide

/-! ### Parsers of bytes -/

/-- What a parser of the bytes that follow `before` answers. -/
structure ParsesAfter (before : List Byte)
    (parse : List Byte → Except DecodeError (Instr × List Byte)) : Prop where
  /-- A parsed instruction is well formed, and the bytes read, after `before`, are its encoding. -/
  reads : ∀ {b i rest}, parse b = .ok (i, rest) →
    i.wellFormed = true ∧ ∃ own, encode i = .bytes (before ++ own) ∧ b = own ++ rest
  /-- Bytes that are no opcode or form of the table stay so, whatever follows. -/
  rejects : ∀ {b e}, parse b = .error e → e ≠ .truncated →
    e ≠ .unlistedSelector ∧ ∀ more, parse (b ++ more) = .error e
  /-- Truncated bytes are the beginning of an instruction. -/
  completes : ∀ {b}, parse b = .error .truncated → ∃ more r, parse (b ++ more) = .ok r

namespace ParsesAfter

variable {before : List Byte} {parse parse' : List Byte → Except DecodeError (Instr × List Byte)}

/-- The instruction is complete. -/
theorem ok {i : Instr} (hwf : i.wellFormed = true) (henc : encode i = .bytes before) :
    ParsesAfter before fun rest => .ok (i, rest) where
  reads h := by
    cases h
    exact ⟨hwf, [], by rw [henc, List.append_nil], rfl⟩
  rejects h := by cases h
  completes h := by cases h

/-- No instruction begins with the bytes read. -/
theorem error {e : DecodeError} (htruncated : e ≠ .truncated) (hselector : e ≠ .unlistedSelector) :
    ParsesAfter before fun _ => .error e where
  reads h := by cases h
  rejects h _ := by
    cases h
    exact ⟨hselector, fun _ => rfl⟩
  completes h := by
    cases h
    exact absurd rfl htruncated

/-- One more byte is read. -/
theorem cons (hnil : parse [] = .error .truncated) (hsome : ∃ more r, parse more = .ok r)
    (hcons : ∀ b, ParsesAfter (before ++ [b]) fun rest => parse (b :: rest)) :
    ParsesAfter before parse where
  reads {bytes i rest} h := by
    cases bytes with
    | nil => cases hnil.symm.trans h
    | cons b bytes =>
      obtain ⟨hwf, own, henc, hown⟩ := (hcons b).reads h
      exact ⟨hwf, b :: own, by simp [henc], by simp [hown]⟩
  rejects {bytes e} h he := by
    cases bytes with
    | nil =>
      cases hnil.symm.trans h
      exact absurd rfl he
    | cons b bytes => exact (hcons b).rejects h he
  completes {bytes} h := by
    cases bytes with
    | nil => exact hsome
    | cons b bytes => exact (hcons b).completes h

/-- What has been read decides how the parse goes on. -/
theorem ite {c : Prop} [Decidable c] (hpos : c → ParsesAfter before parse)
    (hneg : ¬c → ParsesAfter before parse') :
    ParsesAfter before fun rest => if c then parse rest else parse' rest := by
  by_cases hc : c
  · simpa only [if_pos hc] using hpos hc
  · simpa only [if_neg hc] using hneg hc

theorem unknownOpcode : ParsesAfter before fun _ => .error .unknownOpcode :=
  error (by decide) (by decide)

theorem reservedForm : ParsesAfter before fun _ => .error .reservedForm :=
  error (by decide) (by decide)

end ParsesAfter

/-! ### The parsers of the model -/

theorem parsesAfter_decodeFlushOperand {before : List Byte} {make : BitVec 2 → BitVec 3 → Instr}
    (hwf : ∀ m rm, m ≠ 3 → (make m rm).wellFormed = true)
    (henc : ∀ m rm, encode (make m rm) = .bytes (before ++ [flushOperandByte m rm])) :
    ParsesAfter before (decodeFlushOperand make) := by
  have hsome : ∃ more r, decodeFlushOperand make more = .ok r :=
    ⟨[flushOperandByte 0 0], _, Laws.decodeFlushOperand_byte make 0 (by decide) []⟩
  refine .cons rfl hsome fun modrm => .ite (fun h => ?_) fun _ => .reservedForm
  obtain ⟨hreg, hmod⟩ := h
  exact .ok (hwf _ _ hmod) (by rw [henc, flushOperandByte_of_fields hreg])

theorem parsesAfter_decodeWriteOperands : ParsesAfter [0x0F, 0x30] decodeWriteOperands := by
  refine .cons rfl ⟨[0, 0], _, rfl⟩ fun target => .cons rfl ⟨[0], _, rfl⟩ fun value => ?_
  have hwf := wellFormed_msrTargetOfByte target
  have henc := byteOfMsrTarget_msrTargetOfByte target
  refine .ite (fun h => ?_) fun _ => .ite (fun h => ?_) fun _ => .reservedForm
  · exact .ok hwf (by simp [encode, henc, h])
  · exact .ok hwf (by simp [encode, henc, h])

theorem parsesAfter_decodeReadOperand : ParsesAfter [0x0F, 0x32] decodeReadOperand :=
  .cons rfl ⟨[0], _, rfl⟩ fun target =>
    .ok (wellFormed_msrTargetOfByte target)
      (by simp [encode, byteOfMsrTarget_msrTargetOfByte target])

theorem parsesAfter_decodeTwoByte : ParsesAfter [0x0F] decodeTwoByte := by
  refine .cons rfl ⟨[0xA2], _, rfl⟩ fun b => ?_
  refine .ite ?cpuid fun _ => .ite ?wrmsr fun _ => .ite ?rdmsr fun _ => .ite ?wbinvd fun _ =>
    .ite ?invd fun _ => .ite ?clflush fun _ => .unknownOpcode
  case cpuid => rintro rfl; exact .ok rfl rfl
  case wrmsr => rintro rfl; exact parsesAfter_decodeWriteOperands
  case rdmsr => rintro rfl; exact parsesAfter_decodeReadOperand
  case wbinvd => rintro rfl; exact .ok rfl rfl
  case invd => rintro rfl; exact .ok rfl rfl
  case clflush =>
    rintro rfl
    exact parsesAfter_decodeFlushOperand (fun _ _ => bne_iff_ne.mpr) fun _ _ => rfl

theorem parsesAfter_decodePrefixedTwoByte : ParsesAfter [0x66, 0x0F] decodePrefixedTwoByte := by
  refine .cons rfl ⟨[0xAE, 0x38], _, rfl⟩ fun b => .ite ?clflushopt fun _ => .unknownOpcode
  rintro rfl
  exact parsesAfter_decodeFlushOperand (fun _ _ => bne_iff_ne.mpr) fun _ _ => rfl

theorem parsesAfter_decodePrefixed : ParsesAfter [0x66] decodePrefixed := by
  refine .cons rfl ⟨[0x0F, 0xAE, 0x38], _, rfl⟩ fun b => .ite ?twoByte fun _ => .unknownOpcode
  rintro rfl
  exact parsesAfter_decodePrefixedTwoByte

theorem parsesAfter_decodeBytes : ParsesAfter [] decodeBytes := by
  refine .cons rfl ⟨[0x0F, 0xA2], _, rfl⟩ fun b =>
    .ite ?twoByte fun _ => .ite ?clflushopt fun _ => .unknownOpcode
  case twoByte => rintro rfl; exact parsesAfter_decodeTwoByte
  case clflushopt => rintro rfl; exact parsesAfter_decodePrefixed

/-! ### Byte codes and selector pairs -/

theorem decode_bytes_eq_ok {b : List Byte} {i : Instr} :
    decode (.bytes b) = .ok i ↔ ∃ rest, decodeBytes b = .ok (i, rest) := by
  cases h : decodeBytes b <;> simp [decode, Except.map, h, Prod.ext_iff]

theorem decode_bytes_eq_error {b : List Byte} {e : DecodeError} :
    decode (.bytes b) = .error e ↔ decodeBytes b = .error e := by
  cases h : decodeBytes b <;> simp [decode, Except.map, h]

theorem decode_query_selector (L : Leaf) (n : Word) :
    decode (.query L.selector n) = .ok (rowOf L n) := by
  cases L <;> rfl

theorem decode_query_unlisted {eax : Word} (h : ∀ L : Leaf, eax ≠ L.selector) (ecx : Word) :
    decode (.query eax ecx) = .error .unlistedSelector := by
  simp only [decode, decodeQuery, ofWord_eq_none h]

theorem decode_query_eq_ok {eax ecx : Word} {i : Instr} (h : decode (.query eax ecx) = .ok i) :
    ∃ L : Leaf, eax = L.selector ∧ i = rowOf L ecx := by
  by_cases hL : ∃ L : Leaf, eax = L.selector
  · obtain ⟨L, rfl⟩ := hL
    cases (decode_query_selector L ecx).symm.trans h
    exact ⟨L, rfl, rfl⟩
  · cases (decode_query_unlisted (not_exists.mp hL) ecx).symm.trans h

theorem encode_rowOf (L : Leaf) (n : Word) :
    encode (rowOf L n) = .query L.selector (if usesSubleaf L = true then n else 0) := by
  cases L <;> rfl

theorem wellFormed_rowOf (L : Leaf) (n : Word) : (rowOf L n).wellFormed = true := by
  cases L <;> rfl

/-- Settles O4: `Leaf.ofWord` inverts `Leaf.selector`. -/
theorem selectorMap : Obligations.SelectorMap :=
  ⟨decode_query_selector, fun _ ecx h => decode_query_unlisted h ecx⟩

/-! ### What decodes -/

theorem wellFormed_of_decode {c : Code} {i : Instr} (h : decode c = .ok i) :
    i.wellFormed = true := by
  cases c with
  | bytes b =>
    obtain ⟨_, hrest⟩ := decode_bytes_eq_ok.mp h
    obtain ⟨hwf, -⟩ := parsesAfter_decodeBytes.reads hrest
    exact hwf
  | query eax ecx =>
    obtain ⟨L, -, rfl⟩ := decode_query_eq_ok h
    exact wellFormed_rowOf L ecx

/-- Settles O3: the bytes a parse has read are the encoding of what it answers, and a selector pair that
decodes is its leaf's row. -/
theorem decodedIsWellFormed : Obligations.DecodedIsWellFormed := by
  intro c i h
  have hwf : i.wellFormed = true := wellFormed_of_decode h
  refine ⟨hwf, decodeEncodeAgree i hwf, ?bytes, ?query⟩
  case bytes =>
    rintro b rfl
    obtain ⟨rest, hrest⟩ := decode_bytes_eq_ok.mp h
    obtain ⟨-, own, henc, hown⟩ := parsesAfter_decodeBytes.reads hrest
    exact ⟨own, rest, henc, hown⟩
  case query =>
    rintro eax ecx rfl
    obtain ⟨L, rfl, rfl⟩ := decode_query_eq_ok h
    exact ⟨L, rfl, encode_rowOf L ecx⟩

/-! ### What does not decode -/

theorem runLine_code_of_error {c : Code} {e : DecodeError} (h : decode c = .error e) (s : State) :
    runLine (.code c) s = .refused (refusalOfDecodeError e) := by
  simp only [runLine, h]

theorem refusalOfDecodeError_of_ne {e : DecodeError} (htruncated : e ≠ .truncated)
    (hselector : e ≠ .unlistedSelector) : refusalOfDecodeError e = .unmodelledInstruction := by
  cases e with
  | truncated => exact absurd rfl htruncated
  | unlistedSelector => exact absurd rfl hselector
  | unknownOpcode | reservedForm => rfl

/-- Settles O8: a parse that ends with an error has read bytes that begin no instruction, or has come to
the end of bytes that begin one. -/
theorem undecodableLinesRefused : Obligations.UndecodableLinesRefused := by
  intro s
  refine ⟨fun eax ecx h => runLine_code_of_error (decode_query_unlisted h ecx) s,
    fun b e h => ⟨fun he => ?rejected, ?truncated⟩⟩
  case rejected =>
    obtain ⟨hselector, hmore⟩ := parsesAfter_decodeBytes.rejects (decode_bytes_eq_error.mp h) he
    refine ⟨fun more => decode_bytes_eq_error.mpr (hmore more), ?_⟩
    rw [runLine_code_of_error h, refusalOfDecodeError_of_ne he hselector]
  case truncated =>
    rintro rfl
    obtain ⟨more, ⟨i, rest⟩, hmore⟩ :=
      parsesAfter_decodeBytes.completes (decode_bytes_eq_error.mp h)
    exact ⟨⟨more, i, decode_bytes_eq_ok.mpr ⟨rest, hmore⟩⟩, runLine_code_of_error h s⟩

/-! ### Table words -/

theorem decodeTableWord_eq_some {nbits w : Nat} {i : Instr} :
    decodeTableWord nbits w = some i ↔ decode (tableCode nbits w) = .ok i := by
  cases h : decode (tableCode nbits w) <;> simp [decodeTableWord, h]

/-- The match value of a query row, its leaf number, is that row at sub-leaf 0 (30 R80). -/
theorem decodeTableWord_selector (L : Leaf) :
    decodeTableWord 32 L.selector.toNat = some (rowOf L 0) := by
  have hcode : tableCode 32 L.selector.toNat = .query L.selector 0 := by
    cases L <;> rfl
  rw [decodeTableWord_eq_some, hcode, decode_query_selector]

/-- Settles O1: six of the words are leaf numbers; the others are evaluated. -/
theorem tableWordsDecode : Obligations.TableWordsDecode :=
  ⟨by decide, decodeTableWord_selector .l00, decodeTableWord_selector .l01,
    decodeTableWord_selector .l04, decodeTableWord_selector .l0B, decodeTableWord_selector .l18,
    decodeTableWord_selector .l1F, by decide, by decide, by decide, by decide, by decide, by decide,
    by decide⟩

theorem issue_tableStep (s : State) (nbits w : Nat) :
    (s.withFetchWord nbits w).issue (s.tableStep nbits w) s.queue = s := rfl

/-- Settles O6: the step issues the placed line, which restores the state before it was placed, and runs
the instruction it decodes to. -/
theorem tableWordRunsNext : Obligations.TableWordRunsNext := by
  intro s nbits w i h
  have hdecode : decode (tableCode nbits w) = .ok i := decodeTableWord_eq_some.mp h
  calc step (s.withFetchWord nbits w)
      = runLine (.code (tableCode nbits w)) s := by
        rw [step_of_queue (withFetchWord_queue s nbits w), issue_tableStep, State.tableStep]
    _ = exec i s := runLine_code hdecode s

end Sys2Proof.Proofs
end

section
/-! PROOFS. The lines of a program that are no instruction (30_encoding.md R87) and the values of
expressions (00_scope.md R10 to R16), each operator as arithmetic on the words' numbers. -/

namespace Sys2Proof.Proofs

open Sys2Proof.Machine

/-! ### The lines -/

section
variable {s : State} {lp : Lp} (e : Expr)

theorem runLine_setEax (h : s.lps[s.cur]? = some lp) :
    runLine (.setEax e) s = .next (s.setLp s.cur { lp with eax := Reg.of (s.value lp e) }) :=
  onCur_of h _

theorem runLine_setEcx (h : s.lps[s.cur]? = some lp) :
    runLine (.setEcx e) s = .next (s.setLp s.cur { lp with ecx := Reg.of (s.value lp e) }) :=
  onCur_of h _

theorem runLine_keep (h : s.lps[s.cur]? = some lp) :
    runLine (.keep e) s = .next { s with vars := s.vars ++ [s.value lp e] } :=
  onCur_of h _

end

/-! ### The operators -/

theorem toNat_value_limitBit (s : State) (lp : Lp) :
    (s.value lp .limitBit).toNat = s.readBit.toNat := by
  rw [State.value]
  cases s.readBit <;> rfl

theorem toNat_sliceOf (v : Word) {lo len : Nat} (hpos : 0 < len) (hle : lo + len ≤ 32) :
    (sliceOf v lo len).toNat = v.toNat / 2 ^ lo % 2 ^ len := by
  rw [sliceOf, if_pos ⟨hpos, hle⟩, BitVec.toNat_setWidth_of_le (by omega),
    BitVec.extractLsb'_toNat, Nat.shiftRight_eq_div_pow]

theorem toNat_not (v : Word) : (~~~v).toNat = 0xFFFFFFFF - v.toNat := by
  simp [BitVec.toNat_not]

theorem toNat_log2Value {p : Word} {k : Nat} (h : p.toNat = 2 ^ k) : (log2Value p).toNat = k := by
  have hk : k < 32 := (Nat.pow_lt_pow_iff_right one_lt_two).mp (h ▸ p.isLt)
  have hp : p = (1 : Word) <<< k :=
    BitVec.eq_of_toNat_eq (h.trans (toNat_one_shiftLeft (by omega)).symm)
  rw [log2Value, log2Of_of_toNat h, if_pos hp, BitVec.toNat_ofNat]
  exact Nat.mod_eq_of_lt (by omega)

theorem p2Value_of {x : Word} (hpos : 1 ≤ x) (hle : x ≤ 0x80000000) : p2Value x = p2 x :=
  if_pos ⟨hpos, hle⟩

section
variable (a b : Word)

theorem toNat_binValue_and : (binValue .and a b).toNat = a.toNat &&& b.toNat :=
  BitVec.toNat_and ..

theorem toNat_binValue_or : (binValue .or a b).toNat = a.toNat ||| b.toNat :=
  BitVec.toNat_or ..

theorem toNat_binValue_add : (binValue .add a b).toNat = (a.toNat + b.toNat) % 2 ^ 32 :=
  BitVec.toNat_add ..

theorem toNat_binValue_sub :
    (binValue .sub a b).toNat = (a.toNat + (2 ^ 32 - b.toNat)) % 2 ^ 32 := by
  rw [binValue, BitVec.toNat_sub, Nat.add_comm]

theorem toNat_binValue_mul : (binValue .mul a b).toNat = a.toNat * b.toNat % 2 ^ 32 :=
  BitVec.toNat_mul ..

theorem toNat_binValue_div {b : Word} (h : b.toNat ≠ 0) :
    (binValue .div a b).toNat = a.toNat / b.toNat := by
  have hb : b ≠ 0 := BitVec.toNat_ne.mpr h
  rw [binValue, if_neg hb, BitVec.toNat_udiv]

theorem toNat_binValue_shl :
    (binValue .shl a b).toNat = a.toNat * 2 ^ b.toNat % 2 ^ 32 := by
  rw [binValue, BitVec.toNat_shiftLeft, Nat.shiftLeft_eq]

theorem toNat_binValue_shr : (binValue .shr a b).toNat = a.toNat / 2 ^ b.toNat := by
  rw [binValue, BitVec.toNat_ushiftRight, Nat.shiftRight_eq_div_pow]

end

/-- Settles O7: the lines run on the current logical processor, and each form of expression has the value
of its operator. -/
theorem registerLinesSet : Obligations.RegisterLinesSet := by
  intro s lp e hlp
  refine ⟨runLine_setEax e hlp, runLine_setEcx e hlp, runLine_keep e hlp, value_const s lp,
    fun _ _ => regValue_of, fun _ _ => varValue_of, toNat_value_limitBit s lp,
    fun _ _ => toNat_sliceOf _, toNat_not _, fun _ => toNat_log2Value, p2Value_of, fun d => ?_⟩
  exact ⟨toNat_binValue_and .., toNat_binValue_or .., toNat_binValue_add .., toNat_binValue_sub ..,
    toNat_binValue_mul .., toNat_binValue_div _,
    fun _ => ⟨toNat_binValue_shl .., toNat_binValue_shr ..⟩⟩

end Sys2Proof.Proofs
end

section
/-! PROOFS. What query rows return (30_encoding.md R71, R81, R84, R85): each is the query of its leaf, so
its result is a leaf's words, read from the configuration. -/

namespace Sys2Proof.Proofs

open Sys2Proof.Machine

/-! ### Rows and refused instructions -/

/-- Settles O11: both are the query of the leaf and sub-leaf. -/
theorem queryRowIsCpuid : Obligations.QueryRowIsCpuid := by
  intro s lp L n hlp heax hecx
  have hcpuid : execCpuid s = query L n s :=
    execCpuid_eq_query hlp (by rw [heax, reg_of_read]) fun hL => by rw [hecx hL, reg_of_read]
  calc exec (rowOf L n) s = query L n s := exec_rowOf L n s
    _ = exec .cpuid s := hcpuid.symm

theorem execWrmsr_otherUse (tag : Byte) (v : Bool) (s : State) :
    execWrmsr (.otherUse tag) v s = .refused .unmodelledInstruction := rfl

theorem execRdmsr_otherUse (tag : Byte) (s : State) :
    execRdmsr (.otherUse tag) s = .refused .unmodelledInstruction := rfl

/-- Settles O28: the four instructions have no other meaning, and an MSR step looks at its target before
anything else. -/
theorem namedOnlyInstructionsRefused : Obligations.NamedOnlyInstructionsRefused :=
  fun s _ _ tag v => ⟨rfl, rfl, rfl, rfl, execWrmsr_otherUse tag v s, execRdmsr_otherUse tag s⟩

/-! ### What a row returns -/

theorem exec_rowOf_of {s : State} {lp : Lp} {L : Leaf} {n : Word} {w : Words}
    (hlp : s.lps[s.cur]? = some lp) (hmax : L.selector ≤ lp.effectiveMaxLeaf s.limitedMaxLeaf)
    (hw : lp.leafWords s.limitedMaxLeaf L n = w) :
    exec (rowOf L n) s = .next (s.setLp s.cur (lp.withResults w)) := by
  rw [exec_rowOf, query_of n hlp hmax, hw]

theorem extendedWords_of_implemented {t : SubleafTable} (h : t.implemented = true)
    (x2apicId n : Word) :
    extendedWords t x2apicId n = { (t.at n).withEcho n with edx := x2apicId } :=
  if_pos h

theorem extendedWords_of_not_implemented {t : SubleafTable} (h : t.implemented = false)
    (x2apicId n : Word) : extendedWords t x2apicId n = { t.at n with ebx := 0 } :=
  if_neg (ne_true_of_eq_false h)

/-- Settles O18: the rows return the leaves' words, which are those of a leaf that is not implemented. -/
theorem absentExtendedLeafResult : Obligations.AbsentExtendedLeafResult := by
  intro s lp n hlp
  refine ⟨fun hmax habsent => ?leaf1F, fun hmax habsent => ?leaf0B⟩
  case leaf1F =>
    exact exec_rowOf_of (L := .l1F) hlp hmax (extendedWords_of_not_implemented habsent _ n)
  case leaf0B =>
    exact exec_rowOf_of (L := .l0B) hlp hmax (extendedWords_of_not_implemented habsent _ n)

/-! ### Invalid sub-leaves -/

/-- Limiting never raises the maximum of a well-formed configuration (40 R104). -/
theorem effectiveMaxLeaf_le {dt : DomainTypes} {limited : Fin 4} {lp : Lp}
    (hwf : LpConfigWf dt limited lp.cfg) :
    lp.effectiveMaxLeaf limited ≤ lp.cfg.leaf00.maxBasicLeaf := by
  unfold Lp.effectiveMaxLeaf
  split
  · have hbit : lp.cfg.hasLimitBit = true := (Bool.and_eq_true_iff.mp ‹lp.limitBit = true›).1
    exact hwf.limit hbit
  · exact BitVec.le_refl _

/-- So a leaf that a query reaches is one whose rules hold. -/
theorem reports_of_le {dt : DomainTypes} {limited : Fin 4} {lp : Lp} {L : Leaf}
    (hwf : LpConfigWf dt limited lp.cfg) (h : L.selector ≤ lp.effectiveMaxLeaf limited) :
    reports lp.cfg L :=
  BitVec.le_trans h (effectiveMaxLeaf_le hwf)

/-- Only the Null entry and the sub-leaves after it are of Null type. -/
theorem cachesWf_eq_zero {q : Word → Words} {k : Nat} (hwf : CachesWf q k) {m n : Word}
    (hmn : m < n) (hm : (q m).cacheType = 0) : q n = Words.zero := by
  have hk : k ≤ m.toNat := not_lt.mp fun h => hwf.valid m h hm
  exact hwf.invalid n (lt_of_le_of_lt hk hmn)

theorem tlbsWf_main {q : Word → Words} (hwf : TlbsWf q) (h : (q 0).tcType = 0) :
    q 0 = ⟨(q 0).maxSubleaf, 0, 0, 0⟩ := by
  obtain ⟨hebx, hecx, hedx⟩ := hwf.main h
  calc q 0 = ⟨(q 0).eax, (q 0).ebx, (q 0).ecx, (q 0).edx⟩ := rfl
    _ = ⟨(q 0).maxSubleaf, 0, 0, 0⟩ := by rw [hebx, hecx, hedx, Words.maxSubleaf]

theorem extendedWords_domainType {t : SubleafTable} (h : t.implemented = true) (x2apicId n : Word) :
    (extendedWords t x2apicId n).domainType = (t.at n).domainType := by
  rw [extendedWords_of_implemented h]
  exact withEcho_domainType (t.at n) n

/-- From the first sub-leaf of domain type 0 on, an extended leaf is invalid. -/
theorem extendedWords_isInvalid {dt : DomainTypes} {t : SubleafTable} {x2apicId : Word} {valid : Nat}
    (hwf : ExtendedWf dt (extendedWords t x2apicId) valid) (himpl : t.implemented = true)
    {m n : Word} (hmn : m ≤ n) (hm : (t.at m).domainType = 0) :
    isInvalidExtendedResult x2apicId n (extendedWords t x2apicId n) := by
  have hmValid : ¬m.toNat < valid := fun h =>
    (hwf.validity m).mpr h ((extendedWords_domainType himpl x2apicId m).trans hm)
  have hn : valid ≤ n.toNat := (not_lt.mp hmValid).trans hmn
  obtain ⟨heax, hebx⟩ := hwf.invalid n hn
  have htype : (extendedWords t x2apicId n).domainType = 0 :=
    not_not.mp (mt (hwf.validity n).mp (not_lt.mpr hn))
  refine ⟨heax, hebx, htype, ?echo, ?id⟩
  case echo =>
    rw [extendedWords_of_implemented himpl]
    exact withEcho_subleafEcho (t.at n) n
  case id => rw [extendedWords_of_implemented himpl]

/-- Settles O19: the rows return the leaves' words, and the rules of a well-formed configuration say what
these are on an invalid sub-leaf. -/
theorem invalidSubleavesReturnZeros : Obligations.InvalidSubleavesReturnZeros := by
  intro s lp m n hlp hwf
  refine ⟨fun hmax hmn hm => ?caches, fun hmax => ⟨fun hn hinvalid => ?hole, fun hnull => ?main⟩,
    fun hmax himpl hmn hm => ⟨_, exec_rowOf_of (L := .l1F) hlp hmax rfl, ?leaf1F⟩,
    fun hmax himpl hmn hm => ⟨_, exec_rowOf_of (L := .l0B) hlp hmax rfl, ?leaf0B⟩⟩
  case caches =>
    obtain ⟨k, hcaches⟩ := hwf.leaf04 (reports_of_le hwf hmax)
    exact exec_rowOf_of (L := .l04) hlp hmax (cachesWf_eq_zero hcaches hmn hm)
  case hole =>
    have htlbs : TlbsWf lp.cfg.leaf18.at := hwf.leaf18 (reports_of_le hwf hmax)
    exact exec_rowOf_of (L := .l18) hlp hmax (htlbs.invalid n hn hinvalid)
  case main =>
    have htlbs : TlbsWf lp.cfg.leaf18.at := hwf.leaf18 (reports_of_le hwf hmax)
    exact exec_rowOf_of (L := .l18) hlp hmax (tlbsWf_main htlbs hnull)
  case leaf1F =>
    obtain ⟨_, hleaf⟩ := hwf.leaf1F (reports_of_le hwf hmax) himpl
    exact extendedWords_isInvalid hleaf himpl hmn hm
  case leaf0B =>
    exact extendedWords_isInvalid (hwf.leaf0B (reports_of_le hwf hmax) himpl) himpl hmn hm

end Sys2Proof.Proofs
end

section
/-! PROOFS. CPUID itself and the limit bit (40_cpuid_discovery.md R100 to R104, R112): the checks of
CPUID in their order, the effective maximum leaf, and the MSR steps, which write and read bit 22 of one
word of one logical processor. -/

namespace Sys2Proof.Proofs

open Sys2Proof.Machine

/-! ### The checks of CPUID -/

section
variable {s : State} {lp : Lp}

theorem execCpuid_of_eax_empty (hlp : s.lps[s.cur]? = some lp) (heax : lp.eax.holds = false) :
    execCpuid s = .refused .registerHoldsNoValue := by
  simp [execCpuid, onCur_of hlp, reg_read_none heax]

theorem execCpuid_of_ecx_empty {L : Leaf} (hlp : s.lps[s.cur]? = some lp)
    (heax : lp.eax = Reg.of L.selector) (hL : usesSubleaf L = true) (hecx : lp.ecx.holds = false) :
    execCpuid s = .refused .registerHoldsNoValue := by
  simp [execCpuid, onCur_of hlp, heax, hL, reg_read_none hecx]

theorem execCpuid_of_unlisted {v : Word} (hlp : s.lps[s.cur]? = some lp) (heax : lp.eax = Reg.of v)
    (hv : ∀ L : Leaf, v ≠ L.selector) : execCpuid s = .refused .unlistedLeaf := by
  simp [execCpuid, onCur_of hlp, heax, ofWord_eq_none hv]

end

/-- Settles O10: the first three checks come before the query; past them CPUID is the query, which the
effective maximum decides. -/
theorem cpuidGeneralRule : Obligations.CpuidGeneralRule := by
  intro s lp hlp
  refine ⟨execCpuid_of_eax_empty hlp, fun _ => execCpuid_of_ecx_empty hlp,
    fun _ => execCpuid_of_unlisted hlp, fun L n heax hecx => ?_⟩
  have hquery : exec .cpuid s = query L n s :=
    execCpuid_eq_query hlp (by rw [heax, reg_of_read]) fun hL => by rw [hecx hL, reg_of_read]
  rw [hquery]
  exact ⟨query_above n hlp, query_of n hlp⟩

/-- Settles O12: every maximum reaches leaf 00H. -/
theorem leaf00Result : Obligations.Leaf00Result :=
  fun _ _ hlp => exec_rowOf_of (L := .l00) (n := 0) hlp (Nat.zero_le _) rfl

/-! ### The effective maximum leaf -/

theorem effectiveMaxLeaf_of_limitBit {lp : Lp} (h : lp.limitBit = true) (limited : Fin 4) :
    lp.effectiveMaxLeaf limited = BitVec.ofNat 32 limited.val :=
  if_pos h

theorem effectiveMaxLeaf_of_not_limitBit {lp : Lp} (h : lp.limitBit = false) (limited : Fin 4) :
    lp.effectiveMaxLeaf limited = lp.cfg.leaf00.maxBasicLeaf :=
  if_neg (ne_true_of_eq_false h)

theorem effectiveMaxLeaf_lt_four {lp : Lp} (h : lp.limitBit = true) (limited : Fin 4) :
    lp.effectiveMaxLeaf limited < 4 := by
  rw [effectiveMaxLeaf_of_limitBit h]
  revert limited
  decide

theorem limitBit_of_not_hasLimitBit {lp : Lp} (h : lp.cfg.hasLimitBit = false) :
    lp.limitBit = false := by
  rw [Lp.limitBit, h, Bool.false_and]

theorem limitBit_of_hasLimitBit {lp : Lp} (h : lp.cfg.hasLimitBit = true) :
    lp.limitBit = lp.miscEnables.getLsbD 22 := by
  rw [Lp.limitBit, h, Bool.true_and]

/-- Settles O20: the two values of the limit bit, and the rule of a well-formed configuration. -/
theorem effectiveMaximumLeaf : Obligations.EffectiveMaximumLeaf := by
  intro lp limited
  refine ⟨fun h => ⟨effectiveMaxLeaf_of_limitBit h limited, effectiveMaxLeaf_lt_four h limited⟩,
    fun h => effectiveMaxLeaf_of_not_limitBit h limited, limitBit_of_not_hasLimitBit,
    fun _ => effectiveMaxLeaf_le⟩

/-! ### Writing the limit bit -/

theorem setLimitBit_of_not_hasLimitBit {lp : Lp} (h : lp.cfg.hasLimitBit = false) (v : Bool) :
    lp.setLimitBit v = lp :=
  if_neg (ne_true_of_eq_false h)

theorem setLimitBit_eq_with_miscEnables (lp : Lp) (v : Bool) :
    lp.setLimitBit v = { lp with miscEnables := (lp.setLimitBit v).miscEnables } := by
  unfold Lp.setLimitBit
  split <;> rfl

/-- The bits of an MSR word whose bit 22 has been replaced, as `Lp.setLimitBit` does it. -/
theorem getLsbD_replace_bit22 (m : BitVec 64) (v : Bool) (j : Nat) :
    ((m &&& ~~~(0x400000 : BitVec 64)) ||| (if v then 0x400000 else 0)).getLsbD j =
      if j = 22 then v else m.getLsbD j := by
  have hmask : (0x400000 : BitVec 64) = BitVec.twoPow 64 22 := by decide
  by_cases hj : j = 22
  · subst hj
    cases v <;> simp [hmask]
  · have hne : ¬22 = j := Ne.symm hj
    have hlt : m.getLsbD j = true → j < 64 := BitVec.lt_of_getLsbD
    cases v <;> simpa [hmask, hj, hne] using hlt

theorem setLimitBit_getLsbD_ne (lp : Lp) (v : Bool) {j : Nat} (hj : j ≠ 22) :
    (lp.setLimitBit v).miscEnables.getLsbD j = lp.miscEnables.getLsbD j := by
  unfold Lp.setLimitBit
  split
  · exact (getLsbD_replace_bit22 _ v j).trans (if_neg hj)
  · rfl

theorem setLimitBit_getLsbD_self {lp : Lp} (h : lp.cfg.hasLimitBit = true) (v : Bool) :
    (lp.setLimitBit v).miscEnables.getLsbD 22 = v := by
  rw [Lp.setLimitBit, if_pos h]
  exact getLsbD_replace_bit22 _ v 22

theorem setLimitBit_limitBit (lp : Lp) (v : Bool) :
    (lp.setLimitBit v).limitBit = (lp.cfg.hasLimitBit && v) := by
  cases h : lp.cfg.hasLimitBit with
  | false => rw [setLimitBit_of_not_hasLimitBit h, limitBit_of_not_hasLimitBit h, Bool.false_and]
  | true =>
    rw [limitBit_of_hasLimitBit (by rwa [setLimitBit_cfg]), setLimitBit_getLsbD_self h,
      Bool.true_and]

/-- Clearing the limit bit restores full reporting, whether the processor has the bit or not. -/
theorem setLimitBit_false_effectiveMaxLeaf (lp : Lp) (limited : Fin 4) :
    (lp.setLimitBit false).effectiveMaxLeaf limited = lp.cfg.leaf00.maxBasicLeaf := by
  have hclear : (lp.setLimitBit false).limitBit = false := by
    rw [setLimitBit_limitBit, Bool.and_false]
  rw [effectiveMaxLeaf_of_not_limitBit hclear, setLimitBit_cfg]

/-! ### The MSR steps -/

theorem mayAccessMsr_of_ne_application {l : Layer} (h : l ≠ .application) :
    l.mayAccessMsr = true := by
  cases l with
  | bios | os => rfl
  | application => exact absurd rfl h

/-- Settles O24: both steps complete for an agent that may, and the word written is that of
`Lp.setLimitBit`. -/
theorem limitBitSteps : Obligations.LimitBitSteps := by
  intro s lp hlp happ
  have hlayer : s.layer.mayAccessMsr = true := mayAccessMsr_of_ne_application happ
  refine ⟨fun v => ⟨(lp.setLimitBit v).miscEnables, ?step, fun j => setLimitBit_getLsbD_ne lp v,
    fun h => setLimitBit_getLsbD_self h v, fun h => by rw [setLimitBit_of_not_hasLimitBit h], ?clear⟩,
    execRdmsr_of hlayer hlp, limitBit_of_hasLimitBit⟩
  case step =>
    rw [← setLimitBit_eq_with_miscEnables]
    exact execWrmsr_of v hlayer hlp
  case clear =>
    rintro rfl
    rw [← setLimitBit_eq_with_miscEnables]
    exact setLimitBit_false_effectiveMaxLeaf lp s.limitedMaxLeaf

/-- Settles O25: leaf 00H answers with the effective maximum leaf, which the write has made the table's. -/
theorem clearingRestoresFullReporting : Obligations.ClearingRestoresFullReporting := by
  intro s lp hlp happ
  have hwrite := execWrmsr_of false (mayAccessMsr_of_ne_application happ) hlp
  have hcleared := setLp_getElem?_self hlp (lp.setLimitBit false)
  refine ⟨_, _, _, hwrite, leaf00Result _ _ hcleared, setLp_getElem?_self hcleared _, ?_⟩
  rw [setLp_limitedMaxLeaf, setLimitBit_false_effectiveMaxLeaf, Reg.of]

/-- Settles O27: a read writes the software's variable alone, and a write the MSR word of the current
logical processor. -/
theorem limitBitFrame : Obligations.LimitBitFrame := by
  rintro s t i (rfl | ⟨v, rfl⟩) h
  · obtain ⟨-, -, lp, hlp, rfl⟩ := execRdmsr_next h
    exact ⟨⟨lp, lp.miscEnables, hlp, hlp, fun _ => rfl, fun hread => absurd rfl hread⟩, by simp⟩
  · obtain ⟨-, -, lp, hlp, rfl⟩ := execWrmsr_next h
    have hself : (s.setLp s.cur (lp.setLimitBit v)).lps[s.cur]? =
        some { lp with miscEnables := (lp.setLimitBit v).miscEnables } := by
      rw [setLp_getElem?_self hlp, ← setLimitBit_eq_with_miscEnables]
    exact ⟨⟨lp, _, hlp, hself, nofun, fun _ => rfl⟩, fun k hk => setLp_getElem?_ne s hk _, by simp⟩

/-! ### What an instruction learns -/

theorem exec_rdmsr_readBit {s t : State} {x : MsrTarget} (h : exec (.rdmsr x) s = .next t) :
    some t.readBit = (s.lps[s.cur]?).map Lp.limitBit := by
  obtain ⟨-, -, lp, hlp, rfl⟩ := execRdmsr_next h
  rw [hlp, Option.map_some]

/-- Settles O35: what the instruction turns its logical processor into (`Turns`), and what a read of the
limit bit answers, are read from that processor. -/
theorem noProcessorReadsAnother : Obligations.NoProcessorReadsAnother := by
  intro s s' t i hsame hlimited hlayer h
  obtain ⟨lp, lp', hlp, hturns⟩ := exec_next_turns h
  obtain ⟨hlps, -⟩ := hturns.of_next hlp h
  have hlp' : s'.lps[s'.cur]? = some lp := hsame.trans hlp
  obtain ⟨t', ht', hlps', -⟩ := hturns s' hlp' hlayer hlimited
  refine ⟨t', ht', ?processor, ?readBit⟩
  case processor =>
    calc t'.lps[s'.cur]? = some lp' := by rw [hlps']; exact setLp_getElem?_self hlp' lp'
      _ = t.lps[s.cur]? := by rw [hlps]; exact (setLp_getElem?_self hlp lp').symm
  case readBit =>
    rintro ⟨x, rfl⟩
    rw [← Option.some_inj, exec_rdmsr_readBit ht', exec_rdmsr_readBit h, hsame]

end Sys2Proof.Proofs
end

section
/-! PROOFS. The choice of method (40_cpuid_discovery.md R110, R111). -/

namespace Sys2Proof.Proofs

open Sys2Proof.Machine

theorem leafExists_iff (lp : Lp) (limited : Fin 4) (L : Leaf) :
    lp.leafExists limited L = true ↔
      L.selector ≤ lp.effectiveMaxLeaf limited ∧ (lp.leafWords limited L 0).ebx ≠ 0 := by
  rw [Lp.leafExists]
  by_cases h : lp.effectiveMaxLeaf limited < L.selector
  · rw [lpCpuid_above 0 h]
    exact iff_of_false Bool.false_ne_true fun ⟨hmax, _⟩ => BitVec.not_lt.mpr hmax h
  · have hmax : L.selector ≤ lp.effectiveMaxLeaf limited := BitVec.not_lt.mp h
    rw [lpCpuid_ok 0 hmax]
    exact bne_iff_ne.trans (and_iff_right hmax).symm

section
variable {lp : Lp} {limited : Fin 4}

theorem chooseMethod_of_leaf1F (h : lp.leafExists limited .l1F = true) :
    lp.chooseMethod limited = .ok .leaf1F :=
  if_pos h

theorem chooseMethod_of_leaf0B (h1F : lp.leafExists limited .l1F = false)
    (h0B : lp.leafExists limited .l0B = true) : lp.chooseMethod limited = .ok .leaf0B := by
  simp [Lp.chooseMethod, h1F, h0B]

/-- Without an extended leaf the effective maximum decides. -/
theorem chooseMethod_of_no_extended (h1F : lp.leafExists limited .l1F = false)
    (h0B : lp.leafExists limited .l0B = false) :
    lp.chooseMethod limited =
      if 4 ≤ lp.effectiveMaxLeaf limited then .ok .legacy0104
      else if 1 ≤ lp.effectiveMaxLeaf limited then .ok .legacy01Only
      else .error .noCpuidApicId := by
  simp [Lp.chooseMethod, h1F, h0B]

/-- A leaf above 03H does not exist under limited reporting. -/
theorem leafExists_of_limitBit {L : Leaf} (h : lp.limitBit = true) (hL : 4 ≤ L.selector) :
    lp.leafExists limited L = false := by
  have hbelow : lp.effectiveMaxLeaf limited < L.selector :=
    Nat.lt_of_lt_of_le (effectiveMaxLeaf_lt_four h limited) hL
  refine Bool.eq_false_iff.mpr fun hexists => ?_
  obtain ⟨hmax, -⟩ := (leafExists_iff lp limited L).mp hexists
  exact BitVec.not_lt.mpr hmax hbelow

end

/-- Settles O50: existence is `leafExists_iff`, and each preference is a branch of `Lp.chooseMethod`. -/
theorem methodPreference : Obligations.MethodPreference := by
  intro lp limited
  refine ⟨leafExists_iff lp limited .l1F, leafExists_iff lp limited .l0B, Bool.or_eq_true_iff,
    chooseMethod_of_leaf1F, chooseMethod_of_leaf0B, fun h1F h0B => ?_⟩
  rw [chooseMethod_of_no_extended h1F h0B]
  refine ⟨fun hfour => if_pos hfour, fun hone hlt => ?leaf01, fun hzero => ?refused⟩
  case leaf01 => rw [if_neg (BitVec.not_le.mpr hlt), if_pos hone]
  case refused =>
    rw [hzero]
    rfl

theorem one_le_limitedMaxLeaf_iff (limited : Fin 4) :
    1 ≤ BitVec.ofNat 32 limited.val ↔ ¬limited = 0 := by
  revert limited
  decide

/-- Settles O51: LIMITED_MAX_LEAF is below 4, so no extended leaf is reached, and the two legacy leaves
are not both: only whether it is 0 is left to decide. -/
theorem limitedReportingForcesLegacy : Obligations.LimitedReportingForcesLegacy := by
  intro lp limited h
  have h1F : lp.leafExists limited .l1F = false := leafExists_of_limitBit h (by decide)
  have h0B : lp.leafExists limited .l0B = false := leafExists_of_limitBit h (by decide)
  have hlt : lp.effectiveMaxLeaf limited < 4 := effectiveMaxLeaf_lt_four h limited
  refine ⟨?noX2apicId, ?advice, ?method⟩
  case noX2apicId => rw [Lp.hasX2apicId, h1F, h0B, Bool.or_false]
  case advice =>
    rw [Lp.advisesRestore, h1F, h0B, decide_eq_true hlt, h]
    rfl
  case method =>
    rw [chooseMethod_of_no_extended h1F h0B, if_neg (BitVec.not_le.mpr hlt),
      effectiveMaxLeaf_of_limitBit h]
    simp only [one_le_limitedMaxLeaf_iff, ite_not]

end Sys2Proof.Proofs
end

section
/-! PROOFS. Sub-IDs (40_cpuid_discovery.md R106 to R108) as arithmetic on the number of an ID: the field
of bits `shift - 1` down to `lower` is `id % 2 ^ shift / 2 ^ lower`. -/

namespace Sys2Proof.Proofs

open Sys2Proof.Machine

/-! ### Masks and shifts as remainders and quotients -/

theorem toNat_lowMask (s : BitVec 5) : (lowMask s).toNat = 2 ^ s.toNat - 1 := by
  have hone : (1 : Word) ≤ (1 : Word) <<< s.toNat := by
    rw [BitVec.le_def, toNat_one_shiftLeft (by omega)]
    exact Nat.one_le_two_pow
  rw [lowMask, BitVec.toNat_sub_of_le hone, toNat_one_shiftLeft (by omega)]
  rfl

theorem toNat_and_lowMask (id : Word) (s : BitVec 5) :
    (id &&& lowMask s).toNat = id.toNat % 2 ^ s.toNat := by
  rw [BitVec.toNat_and, toNat_lowMask, Nat.and_two_pow_sub_one_eq_mod]

theorem getLsbD_lowMask (s : BitVec 5) (i : Nat) :
    (lowMask s).getLsbD i = decide (i < s.toNat) := by
  rw [BitVec.getLsbD, toNat_lowMask, Nat.testBit_two_pow_sub_one]

theorem not_lowMask (s : BitVec 5) : ~~~lowMask s = BitVec.allOnes 32 <<< s.toNat := by
  apply BitVec.eq_of_getLsbD_eq
  intro i hi
  simp only [BitVec.getLsbD_not, BitVec.getLsbD_shiftLeft, BitVec.getLsbD_allOnes, getLsbD_lowMask,
    hi, decide_true, Bool.true_and, show i - s.toNat < 32 by omega, Bool.and_true]

/-- The bits that the complement of a low mask clears are those a right shift drops. -/
theorem and_not_lowMask (id : Word) (s : BitVec 5) :
    id &&& ~~~lowMask s = id >>> s.toNat <<< s.toNat := by
  rw [not_lowMask, BitVec.shiftLeft_ushiftRight]

theorem and_not_lowMask_ushiftRight (id : Word) (s : BitVec 5) :
    (id &&& ~~~lowMask s) >>> s.toNat = id >>> s.toNat := by
  apply BitVec.eq_of_getLsbD_eq
  intro i hi
  simpa [getLsbD_lowMask] using BitVec.lt_of_getLsbD

theorem and_not_lowMask_eq_iff (p q : Word) (s : BitVec 5) :
    p &&& ~~~lowMask s = q &&& ~~~lowMask s ↔ p >>> s.toNat = q >>> s.toNat := by
  constructor
  · intro h
    rw [← and_not_lowMask_ushiftRight p, h, and_not_lowMask_ushiftRight]
  · intro h
    rw [and_not_lowMask, h, and_not_lowMask]

/-! ### The sub-IDs -/

theorem toNat_subId (lower shift : BitVec 5) (id : Word) :
    (subId lower shift id).toNat = id.toNat % 2 ^ shift.toNat / 2 ^ lower.toNat := by
  rw [subId, domainMask, ← BitVec.and_assoc, and_not_lowMask_ushiftRight, BitVec.toNat_ushiftRight,
    Nat.shiftRight_eq_div_pow, toNat_and_lowMask]

theorem toNat_lpId (lpShift : BitVec 5) (id : Word) :
    (lpId lpShift id).toNat = id.toNat % 2 ^ lpShift.toNat :=
  toNat_and_lowMask id lpShift

theorem toNat_coreId (lpShift coreShift : BitVec 5) (id : Word) :
    (coreId lpShift coreShift id).toNat =
      id.toNat % 2 ^ coreShift.toNat / 2 ^ lpShift.toNat :=
  toNat_subId lpShift coreShift id

theorem packageId_eq_ushiftRight (coreShift : BitVec 5) (id : Word) :
    packageId coreShift id = id >>> coreShift.toNat :=
  and_not_lowMask_ushiftRight id coreShift

theorem toNat_packageId (coreShift : BitVec 5) (id : Word) :
    (packageId coreShift id).toNat = id.toNat / 2 ^ coreShift.toNat := by
  rw [packageId_eq_ushiftRight, BitVec.toNat_ushiftRight, Nat.shiftRight_eq_div_pow]

/-! ### What they identify -/

theorem samePackage_iff (coreShift : BitVec 5) (p q : Word) :
    samePackage coreShift p q = true ↔ p >>> coreShift.toNat = q >>> coreShift.toNat :=
  beq_iff_eq.trans (and_not_lowMask_eq_iff p q coreShift)

theorem sameCore_iff (lpShift : BitVec 5) (p q : Word) :
    sameCore lpShift p q = true ↔ p >>> lpShift.toNat = q >>> lpShift.toNat :=
  beq_iff_eq.trans (and_not_lowMask_eq_iff p q lpShift)

/-- A number is its remainder and quotient by `2 ^ c`, and that remainder is its own remainder and
quotient by `2 ^ l`: three fields, side by side. -/
theorem eq_of_three_fields {l c a b : Nat} (hlc : l ≤ c) (hlow : a % 2 ^ l = b % 2 ^ l)
    (hmid : a % 2 ^ c / 2 ^ l = b % 2 ^ c / 2 ^ l) (hhigh : a / 2 ^ c = b / 2 ^ c) : a = b := by
  have hdvd : 2 ^ l ∣ 2 ^ c := Nat.pow_dvd_pow 2 hlc
  have hbelow : a % 2 ^ c = b % 2 ^ c := by
    refine Nat.ext_div_modEq hmid ?_
    rw [Nat.ModEq, Nat.mod_mod_of_dvd a hdvd, Nat.mod_mod_of_dvd b hdvd, hlow]
  exact Nat.ext_div_modEq hhigh hbelow

theorem eq_of_subIds {lpShift coreShift : BitVec 5} {p q : Word} (hle : lpShift ≤ coreShift)
    (hlp : lpId lpShift p = lpId lpShift q)
    (hcore : coreId lpShift coreShift p = coreId lpShift coreShift q)
    (hpackage : packageId coreShift p = packageId coreShift q) : p = q := by
  rw [BitVec.toNat_eq, toNat_lpId, toNat_lpId] at hlp
  rw [BitVec.toNat_eq, toNat_coreId, toNat_coreId] at hcore
  rw [BitVec.toNat_eq, toNat_packageId, toNat_packageId] at hpackage
  exact BitVec.eq_of_toNat_eq (eq_of_three_fields hle hlp hcore hpackage)

/-- Settles O42: each test of sameness compares shifted IDs, and the three fields make up the ID. -/
theorem subIdsIdentify : Obligations.SubIdsIdentify := by
  intro lpShift coreShift p q hle
  refine ⟨samePackage_iff coreShift p q, sameCore_iff lpShift p q, ?same, ?agree⟩
  case same =>
    rintro rfl
    exact ⟨rfl, rfl, rfl⟩
  case agree =>
    rintro ⟨hlp, hcore, hpackage⟩
    exact eq_of_subIds hle hlp hcore hpackage

/-! ### The width of a field -/

theorem subId_lt {lower shift : BitVec 5} (hle : lower ≤ shift) (id : Word) :
    (subId lower shift id).toNat < 2 ^ (shift.toNat - lower.toNat) := by
  have hpow : 2 ^ shift.toNat = 2 ^ lower.toNat * 2 ^ (shift.toNat - lower.toNat) :=
    (pow_mul_pow_sub 2 hle).symm
  rw [toNat_subId]
  apply Nat.div_lt_of_lt_mul
  rw [← hpow]
  exact Nat.mod_lt _ (Nat.two_pow_pos _)

/-- A sub-ID put in its place, every other bit 0, is read back. -/
theorem subId_of_placed {lower shift : BitVec 5} (hle : lower ≤ shift) {v : Nat}
    (hv : v < 2 ^ (shift.toNat - lower.toNat)) :
    (subId lower shift (BitVec.ofNat 32 (v * 2 ^ lower.toNat))).toNat = v := by
  have hfield : v * 2 ^ lower.toNat < 2 ^ shift.toNat := by
    calc v * 2 ^ lower.toNat
      _ < 2 ^ (shift.toNat - lower.toNat) * 2 ^ lower.toNat :=
        Nat.mul_lt_mul_of_pos_right hv (Nat.two_pow_pos _)
      _ = 2 ^ shift.toNat := Nat.pow_sub_mul_pow 2 hle
  have hword : v * 2 ^ lower.toNat < 2 ^ 32 :=
    hfield.trans (Nat.pow_lt_pow_right one_lt_two (by omega))
  rw [toNat_subId, BitVec.toNat_ofNat, Nat.mod_eq_of_lt hword, Nat.mod_eq_of_lt hfield,
    Nat.mul_div_cancel _ (Nat.two_pow_pos _)]

/-- Settles O43: the bound, and the ID that has the sub-ID in its place and zeros elsewhere. -/
theorem widthReservesSubIds : Obligations.WidthReservesSubIds :=
  fun _ _ hle => ⟨subId_lt hle, fun _ hv => ⟨_, subId_of_placed hle hv⟩⟩

end Sys2Proof.Proofs
end

section
/-! PROOFS. What the rows of leaves 1FH and 0BH return (41_leaf_1f_0b_system_topology.md R130, R133,
R135, R138): the table's words, with the echo and the x2APIC ID put in. -/

namespace Sys2Proof.Proofs

open Sys2Proof.Machine

theorem extendedWords_isExtendedResult {t : SubleafTable} (h : t.implemented = true)
    (x2apicId n : Word) : isExtendedResult t x2apicId n (extendedWords t x2apicId n) := by
  rw [extendedWords_of_implemented h]
  exact ⟨rfl, rfl, withEcho_subleafEcho (t.at n) n, withEcho_high (t.at n) n, rfl⟩

/-- Settles O16: the row is the query of leaf 1FH, which the effective maximum decides. -/
theorem leaf1FResult : Obligations.Leaf1FResult := by
  intro s lp n hlp
  refine ⟨query_above (L := .l1F) n hlp, fun hmax himpl => ?_⟩
  exact ⟨_, exec_rowOf_of (L := .l1F) hlp hmax rfl, extendedWords_isExtendedResult himpl _ n⟩

/-- Settles O17: the row is the query of leaf 0BH, whose words have the format of leaf 1FH. -/
theorem leaf0BResult : Obligations.Leaf0BResult := by
  intro s lp n hlp
  refine ⟨query_above (L := .l0B) n hlp, fun hmax himpl => ?_⟩
  exact ⟨_, exec_rowOf_of (L := .l0B) hlp hmax rfl, extendedWords_isExtendedResult himpl _ n⟩

end Sys2Proof.Proofs
end

section
/-! PROOFS. The masks of a topology (41_leaf_1f_0b_system_topology.md R160 to R164) bit by bit: bit `i`
is in the mask of a domain exactly when `lower ≤ i < shift`. -/

namespace Sys2Proof.Proofs

open Sys2Proof.Machine

/-! ### The mask of a domain -/

theorem getLsbD_domainMask (lower shift : BitVec 5) (i : Nat) :
    (domainMask lower shift).getLsbD i = decide (lower.toNat ≤ i ∧ i < shift.toNat) := by
  have hword : i < shift.toNat → i < 32 := fun h => h.trans shift.isLt
  rw [Bool.eq_iff_iff]
  simp only [domainMask, BitVec.getLsbD_and, BitVec.getLsbD_not, getLsbD_lowMask, Bool.and_eq_true,
    Bool.not_eq_true', decide_eq_true_eq, decide_eq_false_iff_not]
  omega

theorem domainMask_zero (shift : BitVec 5) : domainMask 0 shift = lowMask shift := by
  apply BitVec.eq_of_getLsbD_eq
  intro i _
  simp [getLsbD_domainMask, getLsbD_lowMask]

/-- A field that ends where it begins, or below, has no bits. -/
theorem domainMask_eq_zero {lower shift : BitVec 5} (h : shift ≤ lower) :
    domainMask lower shift = 0 := by
  rw [BitVec.le_def] at h
  apply BitVec.eq_of_getLsbD_eq
  intro i _
  simp only [getLsbD_domainMask, BitVec.ofNat_eq_ofNat, BitVec.getLsbD_zero, decide_eq_false_iff_not]
  omega

/-- Fields that do not meet have disjoint masks. -/
theorem domainMask_and_of_le {l s l' s' : BitVec 5} (h : s ≤ l') :
    domainMask l s &&& domainMask l' s' = 0 := by
  rw [BitVec.le_def] at h
  apply BitVec.eq_of_getLsbD_eq
  intro i _
  simp only [BitVec.getLsbD_and, getLsbD_domainMask, ← Bool.decide_and, BitVec.ofNat_eq_ofNat,
    BitVec.getLsbD_zero, decide_eq_false_iff_not]
  omega

/-- Two fields side by side make up the field from the lower edge of the one to the shift of the
other. -/
theorem domainMask_or_adjacent {l m s : BitVec 5} (hlm : l ≤ m) (hms : m ≤ s) :
    domainMask l m ||| domainMask m s = domainMask l s := by
  rw [BitVec.le_def] at hlm hms
  apply BitVec.eq_of_getLsbD_eq
  intro i _
  simp only [BitVec.getLsbD_or, getLsbD_domainMask, ← Bool.decide_or, decide_eq_decide]
  omega

/-- A sub-ID put back at its place is the ID under its mask. -/
theorem subId_shiftLeft (lower shift : BitVec 5) (id : Word) :
    subId lower shift id <<< lower.toNat = id &&& domainMask lower shift := by
  rw [subId, domainMask, ← BitVec.and_assoc, and_not_lowMask_ushiftRight, ← and_not_lowMask]

/-! ### The three masks -/

theorem lpMask_eq_domainMask (lpShift : BitVec 5) : lpMask lpShift = domainMask 0 lpShift :=
  (domainMask_zero lpShift).symm

theorem lpMask_and_coreMask (lpShift coreShift : BitVec 5) :
    lpMask lpShift &&& coreMask lpShift coreShift = 0 := by
  rw [lpMask_eq_domainMask]
  exact domainMask_and_of_le (BitVec.le_refl lpShift)

theorem lpMask_and_packageMask {lpShift coreShift : BitVec 5} (h : lpShift ≤ coreShift) :
    lpMask lpShift &&& packageMask coreShift = 0 :=
  domainMask_eq_zero h

theorem coreMask_and_packageMask (lpShift coreShift : BitVec 5) :
    coreMask lpShift coreShift &&& packageMask coreShift = 0 := by
  have hpackage : lowMask coreShift &&& packageMask coreShift = 0 :=
    domainMask_eq_zero (BitVec.le_refl coreShift)
  rw [coreMask, BitVec.and_assoc, BitVec.and_comm (~~~_), ← BitVec.and_assoc, hpackage]
  exact BitVec.zero_and

theorem coreMask_or_packageMask {lpShift coreShift : BitVec 5} (h : lpShift ≤ coreShift) :
    coreMask lpShift coreShift ||| packageMask coreShift = coreSystemMask lpShift := by
  rw [BitVec.le_def] at h
  apply BitVec.eq_of_getLsbD_eq
  intro i hi
  rw [Bool.eq_iff_iff]
  simp only [coreMask, lpMask, packageMask, coreSystemMask, BitVec.getLsbD_or, BitVec.getLsbD_and,
    BitVec.getLsbD_not, getLsbD_lowMask, hi, decide_true, Bool.true_and, Bool.or_eq_true,
    Bool.and_eq_true, Bool.not_eq_true', decide_eq_true_eq, decide_eq_false_iff_not]
  omega

theorem three_masks_or {lpShift coreShift : BitVec 5} (h : lpShift ≤ coreShift) :
    lpMask lpShift ||| coreMask lpShift coreShift ||| packageMask coreShift = 0xFFFFFFFF := by
  rw [BitVec.or_assoc, coreMask_or_packageMask h]
  exact BitVec.or_not_self (lowMask lpShift)

/-- Each sub-ID put back is the ID under its mask, and the masks together are all bits. -/
theorem three_subIds_or {lpShift coreShift : BitVec 5} (h : lpShift ≤ coreShift) (id : Word) :
    packageId coreShift id <<< coreShift.toNat |||
      coreId lpShift coreShift id <<< lpShift.toNat ||| lpId lpShift id = id := by
  have hpackage : packageId coreShift id <<< coreShift.toNat = id &&& packageMask coreShift := by
    rw [packageId_eq_ushiftRight, packageMask, and_not_lowMask]
  have hcore : coreId lpShift coreShift id <<< lpShift.toNat =
      id &&& coreMask lpShift coreShift := subId_shiftLeft lpShift coreShift id
  calc packageId coreShift id <<< coreShift.toNat |||
        coreId lpShift coreShift id <<< lpShift.toNat ||| lpId lpShift id
    _ = id &&& packageMask coreShift ||| id &&& coreMask lpShift coreShift |||
          id &&& lpMask lpShift := by rw [hpackage, hcore, lpId]
    _ = id &&& (lpMask lpShift ||| coreMask lpShift coreShift ||| packageMask coreShift) := by
      rw [← BitVec.and_or_distrib_left, ← BitVec.and_or_distrib_left, BitVec.or_comm,
        BitVec.or_comm (packageMask _), BitVec.or_assoc]
    _ = id := by
      rw [three_masks_or h]
      exact BitVec.and_allOnes

/-- Settles O40: the masks are those of fields that do not meet, and the ID under all three is the ID. -/
theorem threeMasksMakeUpTheId : Obligations.ThreeMasksMakeUpTheId :=
  fun lpShift coreShift h => ⟨lpMask_and_coreMask lpShift coreShift, lpMask_and_packageMask h,
    coreMask_and_packageMask lpShift coreShift, three_masks_or h, (coreMask_or_packageMask h).symm,
    three_subIds_or h⟩

/-- Settles O41: the first two are the definitions; the bits the mask clears are those the shift drops. -/
theorem packageIdIsShiftedId : Obligations.PackageIdIsShiftedId :=
  fun coreShift id => ⟨rfl, rfl, packageId_eq_ushiftRight coreShift id⟩

end Sys2Proof.Proofs
end

section
/-! PROOFS. The two extractions (41_leaf_1f_0b_system_topology.md R150, R152). Both walk the sub-leaves
from 1 on while EBX is not 0, which on a well-formed leaf are the valid ones (R140 to R146): what
holds after sub-leaf 1 and is kept by each later one holds at the end. -/

namespace Sys2Proof.Proofs

open Sys2Proof.Machine

/-! ### The valid sub-leaves of a well-formed leaf -/

/-- What sub-leaf number `k` returns. -/
def subleaf (q : Word → Words) (k : Nat) : Words := q (BitVec.ofNat 32 k)

section
variable {dt : DomainTypes} {q : Word → Words} {valid : Nat}

theorem toNat_ofNat_of_le_valid (hwf : ExtendedWf dt q valid) {k : Nat} (hk : k ≤ valid) :
    (BitVec.ofNat 32 k).toNat = k := by
  obtain ⟨-, hmax⟩ := hwf.count
  rw [BitVec.toNat_ofNat, Nat.mod_eq_of_lt (by omega)]

theorem subleaf_ebx_eq_zero_iff (hwf : ExtendedWf dt q valid) {k : Nat} (hk : k ≤ valid) :
    (subleaf q k).ebx = 0 ↔ k = valid := by
  rw [subleaf, ebx_eq_zero_iff_domainType hwf, ← not_iff_not, ← ne_eq, hwf.validity,
    toNat_ofNat_of_le_valid hwf hk]
  omega

theorem subleaf_shift_le (hwf : ExtendedWf dt q valid) {j k : Nat} (hjk : j ≤ k) (hk : k < valid) :
    (subleaf q j).shift ≤ (subleaf q k).shift := by
  apply hwf.monotone
  · rwa [toNat_ofNat_of_le_valid hwf (hjk.trans hk.le), toNat_ofNat_of_le_valid hwf hk.le]
  · rwa [toNat_ofNat_of_le_valid hwf hk.le]

theorem subleaf_domainType_ne (hwf : ExtendedWf dt q valid) {j k : Nat} (hjk : j < k)
    (hk : k < valid) : (subleaf q j).domainType ≠ (subleaf q k).domainType := by
  have hj' := toNat_ofNat_of_le_valid hwf (hjk.trans hk).le
  have hk' := toNat_ofNat_of_le_valid hwf hk.le
  intro h
  have heq := hwf.distinct _ _ (by omega) (by omega) h
  rw [heq] at hj'
  omega

theorem subleaf_zero_domainType (hwf : ExtendedWf dt q valid) :
    (subleaf q 0).domainType = dt.lp := hwf.lowest.1

theorem subleaf_one_domainType (hwf : ExtendedWf dt q valid) :
    (subleaf q 1).domainType = dt.core := hwf.lowest.2

theorem subleaf_domainType_ne_lp (hwf : ExtendedWf dt q valid) {k : Nat} (hpos : 0 < k)
    (hk : k < valid) : (subleaf q k).domainType ≠ dt.lp := by
  rw [← subleaf_zero_domainType hwf]
  exact (subleaf_domainType_ne hwf hpos hk).symm

theorem subleaf_domainType_ne_core (hwf : ExtendedWf dt q valid) {k : Nat} (hone : 1 < k)
    (hk : k < valid) : (subleaf q k).domainType ≠ dt.core := by
  rw [← subleaf_one_domainType hwf]
  exact (subleaf_domainType_ne hwf hone hk).symm

end

/-! ### The walk -/

/-- The loop that both extractions are: `visit` on each sub-leaf from `n` on, up to the first whose EBX
is 0. -/
def subleafLoop {α : Type} (visit : α → Words → α) (q : Word → Words) : Nat → Word → α → α
  | 0, _, a => a
  | turns + 1, n, a =>
    if (q n).ebx = 0 then a else subleafLoop visit q turns (n + 1) (visit a (q n))

/-- One turn of R150's loop. -/
def threeDomainVisit (lpType : Byte) (coreShift : BitVec 5) (r : Words) : BitVec 5 :=
  if r.domainType ≠ lpType then r.shift else coreShift

theorem threeDomainLoop_eq_subleafLoop (lpType : Byte) (q : Word → Words) (turns : Nat) (n : Word)
    (coreShift : BitVec 5) :
    threeDomainLoop lpType q turns n coreShift =
      subleafLoop (threeDomainVisit lpType) q turns n coreShift := by
  induction turns generalizing n coreShift with
  | zero => rfl
  | succ turns ih => simp only [threeDomainLoop, subleafLoop, threeDomainVisit, ih]

theorem nDomainLoop_eq_subleafLoop (known : List Byte) (q : Word → Words) (turns : Nat) (n : Word)
    (w : DomainWalk) :
    nDomainLoop known q turns n w = subleafLoop (DomainWalk.visit known) q turns n w := by
  induction turns generalizing n w with
  | zero => rfl
  | succ turns ih => simp only [nDomainLoop, subleafLoop, ih]

section
variable {α : Type} {visit : α → Words → α} {dt : DomainTypes} {q : Word → Words} {valid : Nat}

/-- A valid sub-leaf is visited, and the walk goes on after it. -/
theorem subleafLoop_succ (hwf : ExtendedWf dt q valid) {k : Nat} (hk : k < valid) (turns : Nat)
    (a : α) :
    subleafLoop visit q (turns + 1) (BitVec.ofNat 32 k) a =
      subleafLoop visit q turns (BitVec.ofNat 32 (k + 1)) (visit a (subleaf q k)) := by
  have hebx : ¬(subleaf q k).ebx = 0 := by
    rw [subleaf_ebx_eq_zero_iff hwf hk.le]
    exact hk.ne
  rw [BitVec.ofNat_add]
  exact if_neg hebx

/-- The walk stops at the first invalid sub-leaf. -/
theorem subleafLoop_valid (hwf : ExtendedWf dt q valid) (turns : Nat) (a : α) :
    subleafLoop visit q turns (BitVec.ofNat 32 valid) a = a := by
  cases turns with
  | zero => rfl
  | succ turns => exact if_pos ((subleaf_ebx_eq_zero_iff hwf le_rfl).mpr rfl)

/-- What holds before sub-leaf `m`, and is kept by every valid sub-leaf from there on, holds at the end
of the walk; `turns` turns are enough to get there. -/
theorem subleafLoop_preserves (hwf : ExtendedWf dt q valid) {P : Nat → α → Prop} {m turns : Nat}
    {a : α} (hm : m ≤ valid) (hturns : valid ≤ m + turns) (hbase : P m a)
    (hstep : ∀ k b, m ≤ k → k < valid → P k b → P (k + 1) (visit b (subleaf q k))) :
    P valid (subleafLoop visit q turns (BitVec.ofNat 32 m) a) := by
  induction turns generalizing m a with
  | zero =>
    obtain rfl : m = valid := by omega
    exact hbase
  | succ turns ih =>
    obtain hlt | rfl := hm.lt_or_eq
    · rw [subleafLoop_succ hwf hlt]
      exact ih hlt (by omega) (hstep m a le_rfl hlt hbase) fun k b hk => hstep k b (by omega)
    · rwa [subleafLoop_valid hwf]

/-- What holds after sub-leaf 1, the core domain, and is kept by every valid sub-leaf after it, holds at
the end of the walk. -/
theorem subleafLoop_induction (hwf : ExtendedWf dt q valid) {P : Nat → α → Prop} {a : α}
    (hbase : P 2 (visit a (subleaf q 1)))
    (hstep : ∀ k b, 2 ≤ k → k < valid → P k b → P (k + 1) (visit b (subleaf q k))) :
    P valid (subleafLoop visit q 255 1 a) := by
  obtain ⟨hmin, hmax⟩ := hwf.count
  have hfirst : subleafLoop visit q 255 1 a =
      subleafLoop visit q 254 (BitVec.ofNat 32 2) (visit a (subleaf q 1)) :=
    subleafLoop_succ hwf hmin 254 a
  rw [hfirst]
  exact subleafLoop_preserves hwf hmin (by omega) hbase hstep

end

/-! ### The three-domain extraction -/

theorem threeDomainVisit_of_ne {lpType : Byte} {r : Words} (h : r.domainType ≠ lpType)
    (coreShift : BitVec 5) : threeDomainVisit lpType coreShift r = r.shift :=
  if_pos h

theorem threeDomainShifts_eq {dt : DomainTypes} {q : Word → Words} {valid : Nat}
    (hwf : ExtendedWf dt q valid) :
    threeDomainShifts dt q = ((subleaf q 0).shift, (subleaf q (valid - 1)).shift) := by
  have hcore : threeDomainLoop dt.lp q 255 1 (q 0).shift = (subleaf q (valid - 1)).shift := by
    rw [threeDomainLoop_eq_subleafLoop]
    refine subleafLoop_induction hwf (P := fun k c => c = (subleaf q (k - 1)).shift) ?base ?step
    case base => exact threeDomainVisit_of_ne (subleaf_domainType_ne_lp hwf one_pos hwf.count.1) _
    case step =>
      intro k c hk hvalid _
      exact threeDomainVisit_of_ne (subleaf_domainType_ne_lp hwf (by omega) hvalid) c
  rw [threeDomainShifts, hcore]
  rfl

/-- Settles O44: each valid sub-leaf after the first is of another type than the logical-processor domain,
so Core_Shift is that of the last one visited. -/
theorem threeDomainShiftsOfWellFormed : Obligations.ThreeDomainShiftsOfWellFormed :=
  fun _ _ _ hwf => threeDomainShifts_eq hwf

/-- Settles O48: the agreement is on the two sub-leaves from which the shifts are taken. -/
theorem agreeingLeavesGiveSameShifts : Obligations.AgreeingLeavesGiveSameShifts := by
  intro dt q r valid hq hr hagree
  calc threeDomainShifts dt q = ((q 0).shift, (q 1).shift) := threeDomainShifts_eq hq
    _ = ((r 0).shift, (r (BitVec.ofNat 32 (valid - 1))).shift) := by
      rw [hagree.first, hagree.last]
    _ = threeDomainShifts dt r := (threeDomainShifts_eq hr).symm

end Sys2Proof.Proofs
end

section
/-! PROOFS. The maps of the extraction for more domains (41_leaf_1f_0b_system_topology.md R152): what
`put` does to the entries of a map and to its values. -/

namespace Sys2Proof.Proofs

open Sys2Proof.Machine

theorem put_of_new {m : ShiftMap} {t : Byte} (h : ∀ e ∈ m, e.1 ≠ t) (v : BitVec 5) :
    m.put t v = m ++ [(t, v)] := by
  have hany : ¬(m.any fun e => e.1 == t) = true := by
    rw [Bool.not_eq_true, List.any_eq_false]
    exact fun e he => by simpa using h e he
  exact if_neg hany

theorem put_of_mem {m : ShiftMap} {t : Byte} (h : ∃ e ∈ m, e.1 = t) (v : BitVec 5) :
    m.put t v = m.map fun e => if e.1 = t then (t, v) else e := by
  have hany : (m.any fun e => e.1 == t) = true := by
    obtain ⟨e, he, het⟩ := h
    exact List.any_eq_true.mpr ⟨e, he, beq_iff_eq.mpr het⟩
  exact if_pos hany

/-- Where only the last entry is of type `t`, it alone takes the new value. -/
theorem put_of_last {m : ShiftMap} {t : Byte} (h : ∀ e ∈ m, e.1 ≠ t) (u v : BitVec 5) :
    ShiftMap.put (m ++ [(t, u)]) t v = m ++ [(t, v)] := by
  have hkeep : (m.map fun e => if e.1 = t then (t, v) else e) = m :=
    (List.map_congr_left fun e he => if_neg (h e he)).trans (List.map_id' m)
  rw [put_of_mem ⟨(t, u), by simp, rfl⟩, List.map_append, hkeep]
  simp

theorem lookup_replace_self {m : ShiftMap} {t : Byte} (h : ∃ e ∈ m, e.1 = t) (v : BitVec 5) :
    (m.map fun e => if e.1 = t then (t, v) else e).lookup t = some v := by
  induction m with
  | nil => simp at h
  | cons e m ih =>
    obtain ⟨t', v'⟩ := e
    by_cases he : t' = t
    · simp [he]
    · have hm : ∃ e ∈ m, e.1 = t := by simpa [he] using h
      simp [he, List.lookup_cons, beq_false_of_ne (Ne.symm he), ih hm]

theorem lookup_replace_of_ne (m : ShiftMap) {t u : Byte} (h : u ≠ t) (v : BitVec 5) :
    (m.map fun e => if e.1 = t then (t, v) else e).lookup u = m.lookup u := by
  induction m with
  | nil => rfl
  | cons e m ih =>
    obtain ⟨t', v'⟩ := e
    by_cases he : t' = t
    · simp [he, List.lookup_cons, beq_false_of_ne h, ih]
    · simp [he, List.lookup_cons, ih]

theorem value_put_self (m : ShiftMap) (t : Byte) (v : BitVec 5) : (m.put t v).value t = some v := by
  by_cases h : ∃ e ∈ m, e.1 = t
  · rw [put_of_mem h]
    exact lookup_replace_self h v
  · have hnew : ∀ e ∈ m, e.1 ≠ t := fun e he het => h ⟨e, he, het⟩
    have hnone : m.lookup t = none :=
      List.lookup_eq_none_iff.mpr fun e he => bne_iff_ne.mpr (hnew e he).symm
    rw [put_of_new hnew, ShiftMap.value, List.lookup_append, hnone]
    simp

theorem value_put_of_ne (m : ShiftMap) {t u : Byte} (h : u ≠ t) (v : BitVec 5) :
    (m.put t v).value u = m.value u := by
  by_cases hm : ∃ e ∈ m, e.1 = t
  · rw [put_of_mem hm]
    exact lookup_replace_of_ne m h v
  · rw [put_of_new fun e he het => hm ⟨e, he, het⟩, ShiftMap.value, List.lookup_append]
    simp [ShiftMap.value, List.lookup_cons, beq_false_of_ne h]

end Sys2Proof.Proofs
end

section
/-! PROOFS. The extraction for more domains (41_leaf_1f_0b_system_topology.md R152 to R154, R164) on a
well-formed leaf: what its walk knows after each valid sub-leaf. -/

namespace Sys2Proof.Proofs

open Sys2Proof.Machine

/-! ### One turn of the walk -/

theorem visit_known {known : List Byte} {r : Words} (h : r.domainType ∈ known) (w : DomainWalk) :
    w.visit known r =
      { shift := w.shift.put r.domainType r.shift
        lower := w.lower.put r.domainType w.prevShift
        current := r.domainType
        prevShift := r.shift } :=
  if_pos (List.contains_iff_mem.mpr h)

theorem visit_unknown {known : List Byte} {r : Words} (h : r.domainType ∉ known) (w : DomainWalk) :
    w.visit known r = { w with shift := w.shift.put w.current r.shift, prevShift := r.shift } :=
  if_neg (mt List.contains_iff_mem.mp h)

theorem visit_prevShift (known : List Byte) (w : DomainWalk) (r : Words) :
    (w.visit known r).prevShift = r.shift := by
  by_cases h : r.domainType ∈ known
  · rw [visit_known h]
  · rw [visit_unknown h]

/-- The walk of `nDomainShifts`, at its end. -/
def domainWalk (dt : DomainTypes) (known : List Byte) (q : Word → Words) : DomainWalk :=
  nDomainLoop known q 255 1 (domainWalkStart dt q)

theorem nDomainShifts_eq (dt : DomainTypes) (known : List Byte) (q : Word → Words) :
    nDomainShifts dt known q =
      { shift := (domainWalk dt known q).shift
        lower := (domainWalk dt known q).lower
        coreShift := (domainWalk dt known q).prevShift
        trueCoreShift := (domainWalk dt known q).shift.value dt.core } := rfl

section
variable {dt : DomainTypes} {known : List Byte} {q : Word → Words} {valid : Nat}

theorem domainWalk_induction (hwf : ExtendedWf dt q valid) {P : Nat → DomainWalk → Prop}
    (hbase : P 2 ((domainWalkStart dt q).visit known (subleaf q 1)))
    (hstep : ∀ k w, 2 ≤ k → k < valid → P k w → P (k + 1) (w.visit known (subleaf q k))) :
    P valid (domainWalk dt known q) := by
  rw [domainWalk, nDomainLoop_eq_subleafLoop]
  exact subleafLoop_induction hwf hbase hstep

theorem domainWalk_prevShift (hwf : ExtendedWf dt q valid) :
    (domainWalk dt known q).prevShift = (subleaf q (valid - 1)).shift :=
  domainWalk_induction hwf (P := fun k w => w.prevShift = (subleaf q (k - 1)).shift)
    (visit_prevShift known _ _) fun k w _ _ _ => visit_prevShift known w (subleaf q k)

/-! ### With two known domains -/

/-- The walk before sub-leaf `k`, where the logical-processor and core domains are known: every later
sub-leaf has been absorbed into the core domain. -/
def twoDomainWalk (dt : DomainTypes) (q : Word → Words) (k : Nat) : DomainWalk where
  shift := [(dt.lp, (subleaf q 0).shift), (dt.core, (subleaf q (k - 1)).shift)]
  lower := [(dt.lp, 0), (dt.core, (subleaf q 0).shift)]
  current := dt.core
  prevShift := (subleaf q (k - 1)).shift

theorem lp_ne_core (hwf : ExtendedWf dt q valid) : dt.lp ≠ dt.core := by
  rw [← subleaf_zero_domainType hwf, ← subleaf_one_domainType hwf]
  exact subleaf_domainType_ne hwf one_pos hwf.count.1

theorem visit_core_of_start (hwf : ExtendedWf dt q valid) :
    (domainWalkStart dt q).visit [dt.lp, dt.core] (subleaf q 1) = twoDomainWalk dt q 2 := by
  have htype : (subleaf q 1).domainType = dt.core := subleaf_one_domainType hwf
  have hnew (v : BitVec 5) : ∀ e ∈ [(dt.lp, v)], e.1 ≠ dt.core := by simpa using lp_ne_core hwf
  rw [visit_known (by simp [htype]), htype, domainWalkStart, put_of_new (hnew _),
    put_of_new (hnew _)]
  rfl

theorem visit_twoDomainWalk (hwf : ExtendedWf dt q valid) {k : Nat} (hk : 2 ≤ k) (hvalid : k < valid) :
    (twoDomainWalk dt q k).visit [dt.lp, dt.core] (subleaf q k) = twoDomainWalk dt q (k + 1) := by
  have hunknown : (subleaf q k).domainType ∉ [dt.lp, dt.core] := by
    simp [subleaf_domainType_ne_lp hwf (by omega : 0 < k) hvalid,
      subleaf_domainType_ne_core hwf hk hvalid]
  have hnew : ∀ e ∈ [(dt.lp, (subleaf q 0).shift)], e.1 ≠ dt.core := by simpa using lp_ne_core hwf
  have hput := put_of_last hnew (subleaf q (k - 1)).shift (subleaf q k).shift
  rw [visit_unknown hunknown]
  simpa [twoDomainWalk] using hput

theorem domainWalk_of_two_known (hwf : ExtendedWf dt q valid) :
    domainWalk dt [dt.lp, dt.core] q = twoDomainWalk dt q valid :=
  domainWalk_induction hwf (P := fun k w => w = twoDomainWalk dt q k) (visit_core_of_start hwf)
    fun k w hk hvalid hw => by rw [hw, visit_twoDomainWalk hwf hk hvalid]

end

/-- Settles O45: the core domain absorbs every later sub-leaf, so its field ends where the last one
does. -/
theorem twoKnownDomainsGiveThreeDomainView : Obligations.TwoKnownDomainsGiveThreeDomainView := by
  intro dt q valid hwf
  have hcore : dt.core ≠ dt.lp := (lp_ne_core hwf).symm
  rw [nDomainShifts_eq, domainWalk_of_two_known hwf, threeDomainShifts_eq hwf]
  refine ⟨rfl, rfl, rfl, ?_⟩
  simp [twoDomainWalk, ShiftMap.value, List.lookup_cons, beq_false_of_ne hcore]

/-! ### The field of the core domain -/

/-- The core domain's entries before sub-leaf `k`: its field begins at the shift of sub-leaf 0 and ends
between the shifts of sub-leaf 1 and of the sub-leaf visited last. -/
structure HasCoreField (dt : DomainTypes) (q : Word → Words) (k : Nat) (w : DomainWalk) : Prop where
  shift : ∃ v, w.shift.value dt.core = some v ∧ (subleaf q 1).shift ≤ v ∧
    v ≤ (subleaf q (k - 1)).shift
  lower : w.lower.value dt.core = some (subleaf q 0).shift

section
variable {dt : DomainTypes} {known : List Byte} {q : Word → Words} {valid : Nat}

theorem hasCoreField_start (hwf : ExtendedWf dt q valid) (hcore : dt.core ∈ known) :
    HasCoreField dt q 2 ((domainWalkStart dt q).visit known (subleaf q 1)) := by
  have htype : (subleaf q 1).domainType = dt.core := subleaf_one_domainType hwf
  rw [visit_known (by rwa [htype]), htype]
  exact ⟨⟨_, value_put_self _ _ _, BitVec.le_refl _, BitVec.le_refl _⟩, value_put_self _ _ _⟩

theorem HasCoreField.visit (hwf : ExtendedWf dt q valid) {k : Nat} {w : DomainWalk} (hk : 2 ≤ k)
    (hvalid : k < valid) (h : HasCoreField dt q k w) :
    HasCoreField dt q (k + 1) (w.visit known (subleaf q k)) := by
  obtain ⟨⟨v, hv, hmin, hmax⟩, hlower⟩ := h
  have hlast : v ≤ (subleaf q k).shift :=
    BitVec.le_trans hmax (subleaf_shift_le hwf (Nat.sub_le k 1) hvalid)
  by_cases hknown : (subleaf q k).domainType ∈ known
  · have hne : dt.core ≠ (subleaf q k).domainType := (subleaf_domainType_ne_core hwf hk hvalid).symm
    rw [visit_known hknown]
    exact ⟨⟨v, (value_put_of_ne _ hne _).trans hv, hmin, hlast⟩,
      (value_put_of_ne _ hne _).trans hlower⟩
  · rw [visit_unknown hknown]
    refine ⟨?_, hlower⟩
    by_cases hcurrent : dt.core = w.current
    · rw [← hcurrent]
      exact ⟨_, value_put_self _ _ _, BitVec.le_trans hmin hlast, BitVec.le_refl _⟩
    · exact ⟨v, (value_put_of_ne _ hcurrent _).trans hv, hmin, hlast⟩

theorem domainWalk_hasCoreField (hwf : ExtendedWf dt q valid) (hcore : dt.core ∈ known) :
    HasCoreField dt q valid (domainWalk dt known q) :=
  domainWalk_induction hwf (hasCoreField_start hwf hcore) fun _ _ hk hvalid h =>
    h.visit hwf hk hvalid

end

/-- Settles O46: `prevShift` is the shift of the sub-leaf visited last whatever is known, and a known core
domain keeps the field that sub-leaf 1 opened, which unknown domains above it can only widen. -/
theorem coreShiftSameForAllKnown : Obligations.CoreShiftSameForAllKnown := by
  intro dt known q valid hwf
  rw [nDomainShifts_eq, threeDomainShifts_eq hwf]
  refine ⟨domainWalk_prevShift hwf, fun ⟨_, hcore⟩ => ?_⟩
  obtain ⟨⟨v, hv, hmin, hmax⟩, hlower⟩ := domainWalk_hasCoreField hwf hcore
  rw [← domainWalk_prevShift hwf (known := known)] at hmax
  exact ⟨v, hv, hmin, hmax, hlower⟩

end Sys2Proof.Proofs
end

section
/-! PROOFS. The fields of the known domains (41_leaf_1f_0b_system_topology.md R152, R154, R164): the maps
of the walk hold the two edges of one list of fields, each of which begins where the one before it
ends. -/

namespace Sys2Proof.Proofs

open Sys2Proof.Machine

/-! ### Fields side by side -/

/-- The field of a domain in the ID: bits `shift - 1` down to `lower`. -/
structure DomainField where
  type : Byte
  lower : BitVec 5
  shift : BitVec 5

/-- A field's entry in the map of shifts. -/
def DomainField.shiftEntry (f : DomainField) : Byte × BitVec 5 := (f.type, f.shift)

/-- A field's entry in the map of lower edges. -/
def DomainField.lowerEntry (f : DomainField) : Byte × BitVec 5 := (f.type, f.lower)

/-- A field's mask. -/
def DomainField.mask (f : DomainField) : Word := domainMask f.lower f.shift

/-- The fields fill the bits from `a` up to `b`, each beginning where the one before it ends. -/
def Tiles : BitVec 5 → List DomainField → BitVec 5 → Prop
  | a, [], b => a = b
  | a, f :: fs, b => f.lower = a ∧ a ≤ f.shift ∧ Tiles f.shift fs b

theorem tiles_append_singleton {a b : BitVec 5} {fs : List DomainField} {f : DomainField} :
    Tiles a (fs ++ [f]) b ↔ Tiles a fs f.lower ∧ f.lower ≤ f.shift ∧ f.shift = b := by
  induction fs generalizing a with
  | nil =>
    simp only [List.nil_append, Tiles, eq_comm (a := a)]
    constructor
    · rintro ⟨rfl, h⟩
      exact ⟨rfl, h⟩
    · rintro ⟨rfl, h⟩
      exact ⟨rfl, h⟩
  | cons g fs ih => simp only [List.cons_append, Tiles, ih, and_assoc]

theorem Tiles.le {a b : BitVec 5} {fs : List DomainField} (h : Tiles a fs b) : a ≤ b := by
  induction fs generalizing a with
  | nil => exact BitVec.le_of_eq h
  | cons f fs ih =>
    obtain ⟨-, hle, hrest⟩ := h
    exact BitVec.le_trans hle (ih hrest)

theorem Tiles.le_lower {a b : BitVec 5} {fs : List DomainField} (h : Tiles a fs b) :
    ∀ f ∈ fs, a ≤ f.lower := by
  induction fs generalizing a with
  | nil => simp
  | cons g fs ih =>
    obtain ⟨rfl, hle, hrest⟩ := h
    rintro f (_ | ⟨_, hf⟩)
    · exact BitVec.le_refl _
    · exact BitVec.le_trans hle (ih hrest f hf)

/-- Fields side by side leave no gap. -/
theorem Tiles.masks_or {a b : BitVec 5} {fs : List DomainField} (h : Tiles a fs b) :
    (fs.map DomainField.mask).foldr (· ||| ·) 0 = domainMask a b := by
  induction fs generalizing a with
  | nil =>
    obtain rfl : a = b := h
    exact (domainMask_eq_zero (BitVec.le_refl a)).symm
  | cons f fs ih =>
    obtain ⟨rfl, hle, hrest⟩ := h
    rw [List.map_cons, List.foldr_cons, ih hrest]
    exact domainMask_or_adjacent hle hrest.le

/-- Fields side by side do not overlap. -/
theorem Tiles.masks_disjoint {a b : BitVec 5} {fs : List DomainField} (h : Tiles a fs b) :
    (fs.map DomainField.mask).Pairwise fun x y => x &&& y = 0 := by
  induction fs generalizing a with
  | nil => exact List.Pairwise.nil
  | cons f fs ih =>
    obtain ⟨rfl, hle, hrest⟩ := h
    refine List.pairwise_cons.mpr ⟨?_, ih hrest⟩
    simp only [List.forall_mem_map]
    exact fun g hg => domainMask_and_of_le (hrest.le_lower g hg)

/-! ### The fields of the walk -/

/-- The walk before sub-leaf `k` has opened the fields `closed` and then `last`, which an unknown domain
at sub-leaf `k` would widen. -/
structure HasFields (q : Word → Words) (k : Nat) (w : DomainWalk) (closed : List DomainField)
    (last : DomainField) : Prop where
  shift : w.shift = (closed ++ [last]).map DomainField.shiftEntry
  lower : w.lower = (closed ++ [last]).map DomainField.lowerEntry
  tiles : Tiles 0 (closed ++ [last]) w.prevShift
  current : w.current = last.type
  prevShift : w.prevShift = (subleaf q (k - 1)).shift
  /-- `last` is the only field of its type. -/
  lastNew : ∀ f ∈ closed, f.type ≠ last.type
  /-- The types are those of sub-leaves already visited. -/
  visited : ∀ f ∈ closed ++ [last], ∃ j < k, f.type = (subleaf q j).domainType

/-- The field that a known domain's sub-leaf opens. -/
def openedField (w : DomainWalk) (r : Words) : DomainField := ⟨r.domainType, w.prevShift, r.shift⟩

/-- A field of a new type, put into the map of shifts or of lower edges, comes after the others. -/
theorem put_entry_of_new (entry : DomainField → Byte × BitVec 5)
    (hentry : ∀ g, (entry g).1 = g.type) {fs : List DomainField} {f : DomainField}
    (hnew : ∀ g ∈ fs, g.type ≠ f.type) :
    ShiftMap.put (fs.map entry) f.type (entry f).2 = (fs ++ [f]).map entry := by
  have hne : ∀ e ∈ fs.map entry, e.1 ≠ f.type := by
    rw [List.forall_mem_map]
    exact fun g hg => (hentry g).trans_ne (hnew g hg)
  rw [put_of_new hne, List.map_append, List.map_singleton, ← hentry f]

theorem hasFields_start {dt : DomainTypes} {q : Word → Words} {valid : Nat}
    (hwf : ExtendedWf dt q valid) :
    HasFields q 1 (domainWalkStart dt q) [] ⟨dt.lp, 0, (subleaf q 0).shift⟩ where
  shift := rfl
  lower := rfl
  tiles := ⟨rfl, Nat.zero_le _, rfl⟩
  current := rfl
  prevShift := rfl
  lastNew := by simp
  visited := List.forall_mem_singleton.mpr ⟨0, one_pos, (subleaf_zero_domainType hwf).symm⟩

namespace HasFields
variable {dt : DomainTypes} {known : List Byte} {q : Word → Words} {valid k : Nat} {w : DomainWalk}
  {closed : List DomainField} {last : DomainField}

theorem type_ne (h : HasFields q k w closed last) (hwf : ExtendedWf dt q valid) (hk : k < valid) :
    ∀ f ∈ closed ++ [last], f.type ≠ (subleaf q k).domainType := by
  intro f hf
  obtain ⟨j, hj, htype⟩ := h.visited f hf
  rw [htype]
  exact subleaf_domainType_ne hwf hj hk

theorem visited_succ (h : HasFields q k w closed last) :
    ∀ f ∈ closed ++ [last], ∃ j < k + 1, f.type = (subleaf q j).domainType := by
  intro f hf
  obtain ⟨j, hj, htype⟩ := h.visited f hf
  exact ⟨j, Nat.lt_succ_of_lt hj, htype⟩

theorem prevShift_le (h : HasFields q k w closed last) (hwf : ExtendedWf dt q valid)
    (hk : k < valid) : w.prevShift ≤ (subleaf q k).shift := by
  rw [h.prevShift]
  exact subleaf_shift_le hwf (Nat.sub_le k 1) hk

/-- A known domain opens a field of its own. -/
theorem visit_known (h : HasFields q k w closed last) (hwf : ExtendedWf dt q valid) (hk : k < valid)
    (hknown : (subleaf q k).domainType ∈ known) :
    HasFields q (k + 1) (w.visit known (subleaf q k)) (closed ++ [last])
      (openedField w (subleaf q k)) := by
  have htypes : ∀ f ∈ closed ++ [last], f.type ≠ (openedField w (subleaf q k)).type :=
    h.type_ne hwf hk
  rw [Proofs.visit_known hknown]
  refine ⟨?shift, ?lower, ?tiles, rfl, rfl, htypes, ?visited⟩
  case shift =>
    rw [h.shift]
    exact put_entry_of_new DomainField.shiftEntry (fun _ => rfl) htypes
  case lower =>
    rw [h.lower]
    exact put_entry_of_new DomainField.lowerEntry (fun _ => rfl) htypes
  case tiles => exact tiles_append_singleton.mpr ⟨h.tiles, h.prevShift_le hwf hk, rfl⟩
  case visited =>
    exact List.forall_mem_append.mpr
      ⟨h.visited_succ, List.forall_mem_singleton.mpr ⟨k, Nat.lt_succ_self k, rfl⟩⟩

/-- An unknown domain is absorbed into the field opened last. -/
theorem visit_unknown (h : HasFields q k w closed last) (hwf : ExtendedWf dt q valid) (hk : k < valid)
    (hunknown : (subleaf q k).domainType ∉ known) :
    HasFields q (k + 1) (w.visit known (subleaf q k)) closed
      { last with shift := (subleaf q k).shift } := by
  obtain ⟨hclosed, hlast, hprev⟩ := tiles_append_singleton.mp h.tiles
  rw [Proofs.visit_unknown hunknown]
  refine ⟨?shift, ?lower, ?tiles, h.current, rfl, h.lastNew, ?visited⟩
  case shift =>
    have hnew : ∀ e ∈ closed.map DomainField.shiftEntry, e.1 ≠ last.type := by
      rw [List.forall_mem_map]
      exact h.lastNew
    rw [h.shift, h.current, List.map_append, List.map_append]
    exact put_of_last hnew last.shift (subleaf q k).shift
  case lower =>
    rw [h.lower, List.map_append, List.map_append]
    rfl
  case tiles =>
    have hwidened : last.lower ≤ (subleaf q k).shift :=
      BitVec.le_trans (hprev ▸ hlast) (h.prevShift_le hwf hk)
    exact tiles_append_singleton.mpr ⟨hclosed, hwidened, rfl⟩
  case visited =>
    obtain ⟨hclosedTypes, hlastType⟩ := List.forall_mem_append.mp h.visited_succ
    rw [List.forall_mem_singleton] at hlastType
    exact List.forall_mem_append.mpr ⟨hclosedTypes, List.forall_mem_singleton.mpr hlastType⟩

theorem visit (h : HasFields q k w closed last) (hwf : ExtendedWf dt q valid) (hk : k < valid) :
    ∃ closed' last', HasFields q (k + 1) (w.visit known (subleaf q k)) closed' last' := by
  by_cases hknown : (subleaf q k).domainType ∈ known
  · exact ⟨_, _, h.visit_known hwf hk hknown⟩
  · exact ⟨_, _, h.visit_unknown hwf hk hknown⟩

end HasFields

theorem domainWalk_hasFields {dt : DomainTypes} {q : Word → Words} {valid : Nat}
    (hwf : ExtendedWf dt q valid) (known : List Byte) :
    ∃ closed last, HasFields q valid (domainWalk dt known q) closed last :=
  domainWalk_induction hwf (P := fun k w => ∃ closed last, HasFields q k w closed last)
    ((hasFields_start hwf).visit hwf hwf.count.1)
    fun _ _ _ hvalid ⟨_, _, h⟩ => h.visit hwf hvalid

/-- The masks of R154 and R164, taken from the two maps entry by entry, are the fields' own. -/
theorem zipWith_entries (fs : List DomainField) :
    List.zipWith (fun hi lo => domainMask lo.2 hi.2) (fs.map DomainField.shiftEntry)
      (fs.map DomainField.lowerEntry) = fs.map DomainField.mask := by
  rw [List.zipWith_map, List.zipWith_self]
  rfl

theorem map_fst_entries (fs : List DomainField) :
    (fs.map DomainField.shiftEntry).map Prod.fst = (fs.map DomainField.lowerEntry).map Prod.fst := by
  rw [List.map_map, List.map_map]
  rfl

/-- Settles O47: the fields of the walk fill the bits from 0 up to Core_Shift, side by side. -/
theorem knownDomainFieldsLeaveNoGap : Obligations.KnownDomainFieldsLeaveNoGap := by
  intro dt known q valid hwf
  obtain ⟨closed, last, h⟩ := domainWalk_hasFields hwf known
  simp only [nDomainShifts_eq, h.shift, h.lower, zipWith_entries]
  refine ⟨map_fst_entries _, ?noGap, h.tiles.masks_disjoint⟩
  rw [h.tiles.masks_or, domainMask_zero]

end Sys2Proof.Proofs
end

section
/-! PROOFS. Cache topology from leaf 04H (42_leaf_04_cache_topology.md R170, R176 to R182): what the row
returns, the walk over its sub-leaves, the sharing masks, which those of leaf 18H (43 R199) are made
like, the test for sharing, and the ID that is masked. -/

namespace Sys2Proof.Proofs

open Sys2Proof.Machine

/-- Settles O14: the row is the query of leaf 04H, which the effective maximum decides. -/
theorem leaf04Result : Obligations.Leaf04Result :=
  fun _ _ n hlp => ⟨query_above (L := .l04) n hlp, fun hmax => exec_rowOf_of (L := .l04) hlp hmax rfl⟩

/-! ### The walk over the sub-leaves -/

section
variable {q : Word → Words} {k : Nat}

theorem cacheType_ofNat_ne_zero (hwf : CachesWf q k) {m : Nat} (hm : m < k) :
    (q (BitVec.ofNat 32 m)).cacheType ≠ 0 := by
  have hk : k ≤ 255 := hwf.bound
  refine hwf.valid _ ?_
  rwa [BitVec.toNat_ofNat, Nat.mod_eq_of_lt (by omega)]

/-- A valid sub-leaf is listed, and the walk goes on after it. -/
theorem cachesLoop_succ (hwf : CachesWf q k) {m : Nat} (hm : m < k) (turns : Nat) :
    cachesLoop q (turns + 1) (BitVec.ofNat 32 m) =
      (BitVec.ofNat 32 m, q (BitVec.ofNat 32 m)) :: cachesLoop q turns (BitVec.ofNat 32 (m + 1)) := by
  rw [BitVec.ofNat_add]
  exact if_neg (cacheType_ofNat_ne_zero hwf hm)

/-- The walk stops at the Null sub-leaf. -/
theorem cachesLoop_null (hwf : CachesWf q k) (turns : Nat) :
    cachesLoop q turns (BitVec.ofNat 32 k) = [] := by
  cases turns with
  | zero => rfl
  | succ turns => exact if_pos hwf.null

/-- From sub-leaf `m` on, with turns enough to reach the Null sub-leaf, the walk lists the `j` valid
sub-leaves that are left. -/
theorem cachesLoop_eq (hwf : CachesWf q k) {m j turns : Nat} (hmj : m + j = k) (hturns : j ≤ turns) :
    cachesLoop q turns (BitVec.ofNat 32 m) =
      (List.range' m j).map fun n => (BitVec.ofNat 32 n, q (BitVec.ofNat 32 n)) := by
  induction j generalizing m turns with
  | zero =>
    obtain rfl : m = k := hmj
    exact cachesLoop_null hwf turns
  | succ j ih =>
    obtain ⟨turns, rfl⟩ : ∃ t, turns = t + 1 := Nat.exists_eq_add_one_of_ne_zero (by omega)
    rw [cachesLoop_succ hwf (by omega), ih (by omega) (by omega), List.range'_succ, List.map_cons]

end

/-- Settles O53: the walk from sub-leaf 0, whose 256 turns are more than the `k` valid sub-leaves. -/
theorem cachesOfWellFormed : Obligations.CachesOfWellFormed := by
  intro q k hwf
  rw [List.range_eq_range']
  exact cachesLoop_eq hwf (Nat.zero_add k) (hwf.bound.trans (by decide))

/-! ### The sharing masks -/

/-- The reserved IDs are `2 ^ j`, where `j = Nat.clog 2` of the count. -/
theorem sharingMask_clears (field : BitVec 12) :
    ∃ j, j ≤ 12 ∧ ~~~(p2 (field.setWidth 32 + 1) - 1) = ~~~(((1 : Word) <<< j) - 1) ∧
      field.toNat + 1 ≤ 2 ^ j ∧ (j ≠ 0 → 2 ^ (j - 1) < field.toNat + 1) := by
  have hcount : (field.setWidth 32 + 1 : Word).toNat = field.toNat + 1 := by bv_omega
  have hle : Nat.clog 2 (field.toNat + 1) ≤ 12 := Nat.clog_le_of_le_pow field.isLt
  have hp2 : p2 (field.setWidth 32 + 1) = (1 : Word) <<< Nat.clog 2 (field.toNat + 1) := by
    apply BitVec.eq_of_toNat_eq
    rw [p2_toNat (by bv_omega) (by bv_omega), hcount, toNat_one_shiftLeft (by omega)]
  refine ⟨Nat.clog 2 (field.toNat + 1), hle, by rw [hp2], Nat.le_pow_clog one_lt_two _, fun hj => ?_⟩
  exact (Nat.lt_clog_iff_pow_lt one_lt_two).mp (Nat.sub_one_lt hj)

/-- Settles O54: both masks are made from a 12-bit count in the same way. -/
theorem sharingMasksClearLowBits : Obligations.SharingMasksClearLowBits :=
  fun r => ⟨sharingMask_clears r.maxLpSharing, sharingMask_clears r.tcMaxLpSharing⟩

/-! ### Sharing a cache -/

theorem words_eq_iff {e r : Words} :
    e = r ↔ e.eax = r.eax ∧ e.ebx = r.ebx ∧ e.ecx = r.ecx ∧ e.edx = r.edx := by
  cases e
  cases r
  exact Iff.of_eq (Words.mk.injEq ..)

theorem sharesCache_iff {r : Words} {a b : Word} {bs : List Entry} :
    sharesCache r a b bs = true ↔
      cacheMask r &&& b = cacheMask r &&& a ∧ ∃ n, (n, r) ∈ bs := by
  simp [sharesCache, cacheCandidate, cacheId]

/-- Settles O55: the masked IDs of all sharers are equal, and each enumerates `r` itself. -/
theorem cacheSharingIsEquivalence : Obligations.CacheSharingIsEquivalence := by
  intro r a b c as bs cs
  refine ⟨?test, fun hown => ⟨?own, fun hab => ?symmetric, fun hab hbc => ?passesOn⟩⟩
  case test => simp only [← words_eq_iff, exists_eq_right, sharesCache_iff]
  case own => exact sharesCache_iff.mpr ⟨rfl, hown⟩
  case symmetric =>
    obtain ⟨hids, -⟩ := sharesCache_iff.mp hab
    exact sharesCache_iff.mpr ⟨hids.symm, hown⟩
  case passesOn =>
    obtain ⟨hab, -⟩ := sharesCache_iff.mp hab
    obtain ⟨hbc, hc⟩ := sharesCache_iff.mp hbc
    exact sharesCache_iff.mpr ⟨hbc.trans hab, hc⟩

/-! ### The ID of a logical processor -/

/-- A leaf that is not implemented returns 0 in EBX. -/
theorem implemented_of_extendedWords_ebx {t : SubleafTable} {x2apicId n : Word}
    (h : (extendedWords t x2apicId n).ebx ≠ 0) : t.implemented = true := by
  by_contra habsent
  rw [extendedWords_of_not_implemented (Bool.eq_false_iff.mpr habsent)] at h
  exact h rfl

theorem extendedWords_x2apicId {t : SubleafTable} {x2apicId n : Word}
    (h : (extendedWords t x2apicId n).ebx ≠ 0) :
    (extendedWords t x2apicId n).x2apicId = x2apicId := by
  rw [extendedWords_of_implemented (implemented_of_extendedWords_ebx h), Words.x2apicId]

section
variable {lp : Lp} {limited : Fin 4}

theorem id_of_hasX2apicId (h : lp.hasX2apicId limited = true) : lp.id limited = lp.cfg.x2apicId :=
  if_pos h

theorem id_of_not_hasX2apicId (h : lp.hasX2apicId limited = false) :
    lp.id limited = lp.cfg.initialApicId.setWidth 32 :=
  if_neg (ne_true_of_eq_false h)

theorem cpuid_of_leafExists {L : Leaf} (h : lp.leafExists limited L = true) :
    lp.cpuid limited L 0 = .ok (lp.leafWords limited L 0) := by
  obtain ⟨hmax, -⟩ := (leafExists_iff lp limited L).mp h
  exact lpCpuid_ok 0 hmax

theorem leaf1F_x2apicId_eq_id (h : lp.leafExists limited .l1F = true) :
    (lp.leafWords limited .l1F 0).x2apicId = lp.id limited := by
  obtain ⟨-, hebx⟩ := (leafExists_iff lp limited .l1F).mp h
  rw [id_of_hasX2apicId (Bool.or_eq_true_iff.mpr (.inl h))]
  exact extendedWords_x2apicId hebx

theorem leaf0B_x2apicId_eq_id (h : lp.leafExists limited .l0B = true) :
    (lp.leafWords limited .l0B 0).x2apicId = lp.id limited := by
  obtain ⟨-, hebx⟩ := (leafExists_iff lp limited .l0B).mp h
  rw [id_of_hasX2apicId (Bool.or_eq_true_iff.mpr (.inr h))]
  exact extendedWords_x2apicId hebx

theorem leaf01_initialApicId_eq_id {dt : DomainTypes} (hwf : LpConfigWf dt limited lp.cfg)
    (hmax : 1 ≤ lp.effectiveMaxLeaf limited) (h : lp.hasX2apicId limited = false) :
    (lp.leafWords limited .l01 0).initialApicId.setWidth 32 = lp.id limited := by
  have hleaf : lp.cfg.leaf01.initialApicId = lp.cfg.initialApicId :=
    hwf.leaf01 (reports_of_le (L := .l01) hwf hmax)
  rw [id_of_not_hasX2apicId h, ← hleaf]
  rfl

theorem queriedId_of_leaf1F (h : lp.leafExists limited .l1F = true) :
    lp.queriedId limited = .ok (lp.leafWords limited .l1F 0).x2apicId := by
  rw [Lp.queriedId, if_pos h, cpuid_of_leafExists h]
  rfl

theorem queriedId_of_leaf0B (h1F : lp.leafExists limited .l1F = false)
    (h0B : lp.leafExists limited .l0B = true) :
    lp.queriedId limited = .ok (lp.leafWords limited .l0B 0).x2apicId := by
  rw [Lp.queriedId, if_neg (ne_true_of_eq_false h1F), if_pos h0B, cpuid_of_leafExists h0B]
  rfl

theorem queriedId_of_not_hasX2apicId (hmax : 1 ≤ lp.effectiveMaxLeaf limited)
    (h : lp.hasX2apicId limited = false) :
    lp.queriedId limited = .ok ((lp.leafWords limited .l01 0).initialApicId.setWidth 32) := by
  obtain ⟨h1F, h0B⟩ := Bool.or_eq_false_iff.mp h
  rw [Lp.queriedId, if_neg (ne_true_of_eq_false h1F), if_neg (ne_true_of_eq_false h0B),
    lpCpuid_ok (L := .l01) 0 hmax]
  rfl

end

/-- Settles O52: an extended leaf that exists is implemented, so its EDX is the x2APIC ID; leaf 01H
reports the initial APIC ID by the well-formedness rule; `queriedId` reads one of the three. -/
theorem queriedIdIsTheId : Obligations.QueriedIdIsTheId := by
  intro lp limited dt hwf hmax
  refine ⟨rfl, ?_, leaf1F_x2apicId_eq_id, leaf0B_x2apicId_eq_id,
    leaf01_initialApicId_eq_id hwf hmax⟩
  cases h1F : lp.leafExists limited .l1F with
  | true => rw [queriedId_of_leaf1F h1F, leaf1F_x2apicId_eq_id h1F]
  | false =>
    cases h0B : lp.leafExists limited .l0B with
    | true => rw [queriedId_of_leaf0B h1F h0B, leaf0B_x2apicId_eq_id h0B]
    | false =>
      have hnone : lp.hasX2apicId limited = false := Bool.or_eq_false_iff.mpr ⟨h1F, h0B⟩
      rw [queriedId_of_not_hasX2apicId hmax hnone, leaf01_initialApicId_eq_id hwf hmax hnone]

end Sys2Proof.Proofs
end

section
/-! PROOFS. TLB topology from leaf 18H (43_leaf_18_tlb_topology.md R190 to R203): what the row returns,
the walk over all its sub-leaves, and the test for sharing. -/

namespace Sys2Proof.Proofs

open Sys2Proof.Machine

/-- Settles O15: the row is the query of leaf 18H, which the effective maximum decides. -/
theorem leaf18Result : Obligations.Leaf18Result :=
  fun _ _ n hlp => ⟨query_above (L := .l18) n hlp, fun hmax => exec_rowOf_of (L := .l18) hlp hmax rfl⟩

/-! ### The walk over the sub-leaves -/

/-- One turn lists the sub-leaf of its own index, or nothing. -/
theorem tlbEntry_eq_some_iff {q : Word → Words} {m : Nat} {n : Word} {r : Words} :
    tlbEntry q m = some (n, r) ↔ BitVec.ofNat 32 m = n ∧ (q n).tcType ≠ 0 ∧ r = q n := by
  by_cases hnull : (q (BitVec.ofNat 32 m)).tcType = 0
  · have hnone : tlbEntry q m = none := if_pos hnull
    rw [hnone]
    refine iff_of_false nofun ?_
    rintro ⟨rfl, hvalid, -⟩
    exact hvalid hnull
  · have hsome : tlbEntry q m = some (BitVec.ofNat 32 m, q (BitVec.ofNat 32 m)) := if_neg hnull
    rw [hsome, Option.some_inj, Prod.mk.injEq]
    constructor
    · rintro ⟨rfl, rfl⟩
      exact ⟨rfl, hnull, rfl⟩
    · rintro ⟨rfl, -, rfl⟩
      exact ⟨rfl, rfl⟩

/-- The indices of R197's loop are the words up to MAX_SUBLEAF, both ends included. -/
theorem exists_index_iff_le {max n : Word} :
    (∃ m ∈ List.range (max.toNat + 1), BitVec.ofNat 32 m = n) ↔ n ≤ max := by
  simp only [List.mem_range, Nat.lt_succ_iff]
  constructor
  · rintro ⟨m, hm, rfl⟩
    exact (Nat.mod_le m _).trans hm
  · exact fun hn => ⟨n.toNat, hn, by simp⟩

/-- Settles O56: the walk visits every index up to MAX_SUBLEAF, and each turn decides for itself. -/
theorem tlbsOfEverySubleaf : Obligations.TlbsOfEverySubleaf := by
  intro q n r
  calc (n, r) ∈ tlbsOf q
    _ ↔ ∃ m ∈ List.range ((q 0).maxSubleaf.toNat + 1), tlbEntry q m = some (n, r) :=
      List.mem_filterMap
    _ ↔ (∃ m ∈ List.range ((q 0).maxSubleaf.toNat + 1), BitVec.ofNat 32 m = n) ∧
          (q n).tcType ≠ 0 ∧ r = q n := by
      simp only [tlbEntry_eq_some_iff, ← and_assoc, exists_and_right]
    _ ↔ n ≤ (q 0).maxSubleaf ∧ (q n).tcType ≠ 0 ∧ r = q n := by rw [exists_index_iff_le]

/-! ### Sharing a translation structure -/

theorem sameTlb_iff {r e : Words} :
    sameTlb r e = true ↔ e.ebx = r.ebx ∧ e.ecx = r.ecx ∧ e.edx = r.edx := by
  simp [sameTlb, and_assoc]

theorem sharesTlb_iff {r : Words} {a b : Word} {bs : List Entry} :
    sharesTlb r a b bs = true ↔ tlbMask r &&& b = tlbMask r &&& a ∧
      ∃ n e, (n, e) ∈ bs ∧ e.ebx = r.ebx ∧ e.ecx = r.ecx ∧ e.edx = r.edx := by
  simp [sharesTlb, tlbCandidate, tlbId, sameTlb_iff]

/-- EAX of the structure is in neither its mask nor the comparison. -/
theorem sharesTlb_with_eax (r : Words) (x a b : Word) (bs : List Entry) :
    sharesTlb { r with eax := x } a b bs = sharesTlb r a b bs := rfl

/-- EAX of the other logical processor's sub-leaf is not compared. -/
theorem sharesTlb_entry_with_eax (r e : Words) (a b y n : Word) (bs cs : List Entry) :
    sharesTlb r a b (bs ++ (n, { e with eax := y }) :: cs) =
      sharesTlb r a b (bs ++ (n, e) :: cs) := by
  have hsame : sameTlb r { e with eax := y } = sameTlb r e := rfl
  simp only [sharesTlb, List.any_append, List.any_cons, hsame]

/-- A logical processor that enumerates the structure shares it with all of the same masked ID. -/
theorem sharesTlb_of_mem {r : Words} {a b n : Word} {bs : List Entry} (hown : (n, r) ∈ bs)
    (hids : tlbMask r &&& b = tlbMask r &&& a) : sharesTlb r a b bs = true :=
  sharesTlb_iff.mpr ⟨hids, n, r, hown, rfl, rfl, rfl⟩

/-- Settles O57: the test is on the masked IDs, where it is symmetric, and on the three registers, which
`a` enumerates for each structure of its own. -/
theorem tlbSharingIgnoresEax : Obligations.TlbSharingIgnoresEax := by
  intro r e a b x y n as bs cs
  refine ⟨sharesTlb_iff, sharesTlb_with_eax r x a b bs, sharesTlb_entry_with_eax r e a b y n bs cs,
    fun hown => ⟨sharesTlb_of_mem hown rfl, fun hab => ?mutually⟩⟩
  case mutually =>
    obtain ⟨hids, -⟩ := sharesTlb_iff.mp hab
    exact sharesTlb_of_mem hown hids.symm

end Sys2Proof.Proofs
end

section
/-! PROOFS. The legacy method (44_leaf_01_legacy.md R210 to R224): what the row of leaf 01H returns, and
the masks. Both counts are powers of two, `2 ^ (s + c)` logical-processor IDs and `2 ^ c` core IDs, so
the three masks are those of the bits below `s`, from `s` below `s + c`, and from `s + c` on. -/

namespace Sys2Proof.Proofs

open Sys2Proof.Machine

/-- Settles O13: the row is the query of leaf 01H, which the effective maximum decides. -/
theorem leaf01Result : Obligations.Leaf01Result :=
  fun _ _ hlp => ⟨query_above (L := .l01) 0 hlp,
    fun hmax => exec_rowOf_of (L := .l01) (n := 0) hlp hmax rfl⟩

/-! ### The two counts -/

/-- The exponent of `P2` stays below 32, so not even an operand outside its domain makes it 0. -/
theorem p2_toNat_two_pow (x : Word) : ∃ k, (p2 x).toNat = 2 ^ k := by
  refine ⟨_, toNat_one_shiftLeft ?_⟩
  by_cases hzero : (x * 2 - 1).toNat = 0
  · rw [hzero, Nat.log2_zero]
    exact Nat.zero_le _
  · exact Nat.le_of_lt_succ ((Nat.log2_lt hzero).mpr (BitVec.isLt _))

theorem maxLpIdsPerPackage_of_absent {htt : Bool} {n : Byte} (h : htt = false ∨ n = 0) :
    maxLpIdsPerPackage htt n = 1 :=
  if_pos h

theorem maxLpIdsPerPackage_of_valid {htt : Bool} {n : Byte} (hhtt : htt = true) (hn : n ≠ 0) :
    maxLpIdsPerPackage htt n = (p2 (n.setWidth 32)).toNat :=
  if_neg (not_or.mpr ⟨ne_false_of_eq_true hhtt, hn⟩)

theorem maxLpIdsPerPackage_two_pow (htt : Bool) (n : Byte) :
    ∃ k, maxLpIdsPerPackage htt n = 2 ^ k := by
  by_cases h : htt = false ∨ n = 0
  · exact ⟨0, maxLpIdsPerPackage_of_absent h⟩
  · rw [maxLpIdsPerPackage, if_neg h]
    exact p2_toNat_two_pow _

theorem maxCoreIdsPerPackage_two_pow (core : Option (BitVec 6)) :
    ∃ k, maxCoreIdsPerPackage core = 2 ^ k := by
  cases core with
  | none => exact ⟨0, rfl⟩
  | some n => exact p2_toNat_two_pow _

/-- A core count of 1, as without leaf 04H, fits every count of logical-processor IDs. -/
theorem one_le_maxLpIdsPerPackage (htt : Bool) (n : Byte) : 1 ≤ maxLpIdsPerPackage htt n := by
  obtain ⟨k, hk⟩ := maxLpIdsPerPackage_two_pow htt n
  rw [hk]
  exact Nat.one_le_two_pow

/-- R214's rule on the two leaves is the order of the two counts. -/
theorem maxCoreIds_le_maxLpIds_of_consistent {r1 r4 : Words} (h : LegacyConsistent r1 r4)
    (hhtt : r1.htt = true) (hn : r1.maxLpIds ≠ 0) :
    maxCoreIdsPerPackage (coreIdsField r4) ≤ maxLpIdsPerPackage r1.htt r1.maxLpIds := by
  by_cases hnull : r4.cacheType = 0
  · rw [coreIdsField, if_pos hnull]
    exact one_le_maxLpIdsPerPackage _ _
  · rw [coreIdsField, if_neg hnull, maxLpIdsPerPackage_of_valid hhtt hn]
    exact h hhtt hn hnull

/-! ### The masks as fields of bits -/

/-- The byte whose set bits are those below `k`. -/
def lowBits (k : Nat) : Byte := BitVec.ofNat 8 (2 ^ k - 1)

theorem getLsbD_lowBits (k : Nat) {i : Nat} (hi : i < 8) :
    (lowBits k).getLsbD i = decide (i < k) := by
  rw [lowBits, BitVec.getLsbD_ofNat, Nat.testBit_two_pow_sub_one, decide_eq_true hi, Bool.true_and]

theorem not_lowBits (k : Nat) : ~~~lowBits k = BitVec.allOnes 8 <<< k := by
  apply BitVec.eq_of_getLsbD_eq
  intro i hi
  simp only [BitVec.getLsbD_not, getLsbD_lowBits k hi, BitVec.getLsbD_shiftLeft,
    BitVec.getLsbD_allOnes, hi, decide_true, Bool.true_and, show i - k < 8 by omega, Bool.and_true]

/-- The bits below `j` and those from `k` on do not meet where `j ≤ k`. -/
theorem lowBits_and_not_lowBits {j k : Nat} (h : j ≤ k) : lowBits j &&& ~~~lowBits k = 0 := by
  apply BitVec.eq_of_getLsbD_eq
  intro i hi
  simp only [BitVec.getLsbD_and, BitVec.getLsbD_not, getLsbD_lowBits _ hi, hi, decide_true,
    Bool.true_and, BitVec.ofNat_eq_ofNat, BitVec.getLsbD_zero, Bool.and_eq_false_imp,
    Bool.not_eq_false', decide_eq_true_eq]
  omega

/-- Shifted right and put back, a byte without bits below `k` is itself. -/
theorem and_not_lowBits_shift_back (x : Byte) (k : Nat) :
    (x &&& ~~~lowBits k) >>> k <<< k = x &&& ~~~lowBits k := by
  rw [BitVec.shiftLeft_ushiftRight, ← not_lowBits, BitVec.and_assoc, BitVec.and_self]

/-- What R216 answers for `2 ^ (s + c)` logical-processor IDs and `2 ^ c` core IDs. -/
def fieldMasks (id : Byte) (s c : Nat) : LegacyMasks where
  id := id
  lpMask := lowBits s
  coreMask := lowBits (s + c) &&& ~~~lowBits s
  coreShift := s
  packageMask := ~~~lowBits (s + c)
  packageShift := s + c

theorem masksOfCounts_of_lt (id : Byte) {lpIds coreIds : Nat} (h : lpIds < coreIds) :
    masksOfCounts id lpIds coreIds = .error .malformedLegacyCounts :=
  if_pos h

theorem masksOfCounts_of_le (id : Byte) {lpIds coreIds : Nat} (h : coreIds ≤ lpIds) :
    ∃ m, masksOfCounts id lpIds coreIds = .ok m :=
  ⟨_, if_neg (Nat.not_lt.mpr h)⟩

theorem masksOfCounts_eq_error_iff {id : Byte} {lpIds coreIds : Nat} :
    masksOfCounts id lpIds coreIds = .error .malformedLegacyCounts ↔ lpIds < coreIds := by
  refine ⟨fun h => ?_, masksOfCounts_of_lt id⟩
  by_contra hle
  obtain ⟨m, hm⟩ := masksOfCounts_of_le id (Nat.not_lt.mp hle)
  cases h.symm.trans hm

theorem masksOfCounts_two_pow (id : Byte) (s c : Nat) :
    masksOfCounts id (2 ^ (s + c)) (2 ^ c) = .ok (fieldMasks id s c) := by
  have hle : 2 ^ c ≤ 2 ^ (s + c) := Nat.pow_le_pow_right two_pos (Nat.le_add_left c s)
  have hperCore : 2 ^ (s + c) / 2 ^ c = 2 ^ s := by
    rw [Nat.pow_add, Nat.mul_div_cancel _ (Nat.two_pow_pos c)]
  simp only [masksOfCounts, if_neg (Nat.not_lt.mpr hle), hperCore, Nat.log2_two_pow, fieldMasks,
    lowBits]

/-- Where the algorithm answers, the core count divides the other, and the masks are of three fields. -/
theorem masksOfCounts_eq_ok {id n : Byte} {htt : Bool} {core : Option (BitVec 6)} {m : LegacyMasks}
    (h : masksOfCounts id (maxLpIdsPerPackage htt n) (maxCoreIdsPerPackage core) = .ok m) :
    ∃ s c, maxCoreIdsPerPackage core = 2 ^ c ∧ m = fieldMasks id s c := by
  obtain ⟨a, ha⟩ := maxLpIdsPerPackage_two_pow htt n
  obtain ⟨c, hc⟩ := maxCoreIdsPerPackage_two_pow core
  rw [ha, hc] at h
  have hca : c ≤ a := by
    by_contra hlt
    cases (masksOfCounts_of_lt id
      (Nat.pow_lt_pow_right one_lt_two (Nat.not_le.mp hlt))).symm.trans h
  obtain ⟨s, rfl⟩ := Nat.exists_eq_add_of_le' hca
  rw [masksOfCounts_two_pow] at h
  exact ⟨s, c, hc, (Except.ok.inj h).symm⟩

section
variable (id : Byte) (s c : Nat)

theorem fieldMasks_lpMask_and_coreMask :
    (fieldMasks id s c).lpMask &&& (fieldMasks id s c).coreMask = 0 := by
  simp only [fieldMasks]
  rw [BitVec.and_comm (lowBits (s + c)), ← BitVec.and_assoc, lowBits_and_not_lowBits (Nat.le_refl s)]
  exact BitVec.zero_and

theorem fieldMasks_lpMask_and_packageMask :
    (fieldMasks id s c).lpMask &&& (fieldMasks id s c).packageMask = 0 :=
  lowBits_and_not_lowBits (Nat.le_add_right s c)

theorem fieldMasks_coreMask_and_packageMask :
    (fieldMasks id s c).coreMask &&& (fieldMasks id s c).packageMask = 0 := by
  simp only [fieldMasks]
  rw [BitVec.and_assoc, BitVec.and_comm (~~~lowBits s), ← BitVec.and_assoc,
    lowBits_and_not_lowBits (Nat.le_refl (s + c))]
  exact BitVec.zero_and

theorem fieldMasks_masks_or :
    (fieldMasks id s c).lpMask ||| (fieldMasks id s c).coreMask |||
      (fieldMasks id s c).packageMask = 0xFF := by
  change _ = BitVec.allOnes 8
  apply BitVec.eq_of_getLsbD_eq
  intro i hi
  rw [BitVec.getLsbD_allOnes, decide_eq_true hi]
  simp only [fieldMasks, BitVec.getLsbD_or, BitVec.getLsbD_and, BitVec.getLsbD_not,
    getLsbD_lowBits _ hi, hi, decide_true, Bool.true_and, Bool.or_eq_true, Bool.and_eq_true,
    Bool.not_eq_true', decide_eq_true_eq, decide_eq_false_iff_not]
  omega

/-- The core mask is the mask of `2 ^ c` core IDs, moved above the logical-processor field (R222). -/
theorem fieldMasks_coreMask_eq_shiftLeft :
    (fieldMasks id s c).coreMask = lowBits c <<< (fieldMasks id s c).coreShift := by
  apply BitVec.eq_of_getLsbD_eq
  intro i hi
  have hc : (lowBits c).getLsbD (i - s) = decide (i - s < c) := getLsbD_lowBits c (by omega)
  rw [Bool.eq_iff_iff]
  simp only [fieldMasks, BitVec.getLsbD_and, BitVec.getLsbD_not, BitVec.getLsbD_shiftLeft,
    getLsbD_lowBits _ hi, hc, hi, decide_true, Bool.true_and, Bool.and_eq_true,
    Bool.not_eq_true', decide_eq_true_eq, decide_eq_false_iff_not]
  omega

theorem fieldMasks_packageId_shiftLeft :
    (fieldMasks id s c).packageId <<< (fieldMasks id s c).packageShift =
      id &&& (fieldMasks id s c).packageMask :=
  and_not_lowBits_shift_back id (s + c)

theorem fieldMasks_coreId_shiftLeft :
    (fieldMasks id s c).coreId <<< (fieldMasks id s c).coreShift =
      id &&& (fieldMasks id s c).coreMask := by
  have h := and_not_lowBits_shift_back (id &&& lowBits (s + c)) s
  rwa [BitVec.and_assoc] at h

/-- Each sub-ID put back is the ID under its mask, and the masks together are all bits (R223). -/
theorem fieldMasks_subIds_or :
    (fieldMasks id s c).packageId <<< (fieldMasks id s c).packageShift |||
      (fieldMasks id s c).coreId <<< (fieldMasks id s c).coreShift |||
      (fieldMasks id s c).lpId = id := by
  rw [fieldMasks_packageId_shiftLeft, fieldMasks_coreId_shiftLeft]
  calc id &&& (fieldMasks id s c).packageMask ||| id &&& (fieldMasks id s c).coreMask |||
        id &&& (fieldMasks id s c).lpMask
    _ = id &&& ((fieldMasks id s c).lpMask ||| (fieldMasks id s c).coreMask |||
          (fieldMasks id s c).packageMask) := by
      rw [← BitVec.and_or_distrib_left, ← BitVec.and_or_distrib_left, BitVec.or_comm,
        BitVec.or_comm (fieldMasks id s c).packageMask, BitVec.or_assoc]
    _ = id := by
      rw [fieldMasks_masks_or]
      exact BitVec.and_allOnes

end

/-- Settles O58: where the algorithm answers, its masks are those of three adjacent fields. -/
theorem legacyMasksMakeUpTheId : Obligations.LegacyMasksMakeUpTheId := by
  intro id maxLpIds htt core m h
  obtain ⟨s, c, hcores, rfl⟩ := masksOfCounts_eq_ok h
  rw [hcores]
  exact ⟨rfl, fieldMasks_lpMask_and_coreMask id s c, fieldMasks_lpMask_and_packageMask id s c,
    fieldMasks_coreMask_and_packageMask id s c, fieldMasks_masks_or id s c,
    fieldMasks_coreMask_eq_shiftLeft id s c, fieldMasks_subIds_or id s c⟩

/-! ### Where the algorithm answers -/

/-- A maximum of 4 or more is not limited, so what it reaches is reported. -/
theorem reports_of_four_le {lp : Lp} {limited : Fin 4} {L : Leaf} (hfour : 4 ≤ L.selector)
    (hmax : L.selector ≤ lp.effectiveMaxLeaf limited) : reports lp.cfg L := by
  cases hbit : lp.limitBit with
  | false => rwa [effectiveMaxLeaf_of_not_limitBit hbit] at hmax
  | true =>
    have hlt : lp.effectiveMaxLeaf limited < 4 := effectiveMaxLeaf_lt_four hbit limited
    exact absurd (BitVec.le_trans hfour hmax) (BitVec.not_le.mpr hlt)

section
variable {lp : Lp} {limited : Fin 4}

theorem legacyMasks_of_leaf04 (h : 4 ≤ lp.effectiveMaxLeaf limited) :
    lp.legacyMasks limited =
      masksOfCounts lp.cfg.leaf01.initialApicId
        (maxLpIdsPerPackage lp.cfg.leaf01.htt lp.cfg.leaf01.maxLpIds)
        (maxCoreIdsPerPackage (coreIdsField (lp.cfg.leaf04.at 0))) := by
  have hone : 1 ≤ lp.effectiveMaxLeaf limited := BitVec.le_trans (by decide) h
  rw [Lp.legacyMasks, lpCpuid_ok (L := .l01) 0 hone, lpCpuid_ok (L := .l04) 0 h]
  rfl

theorem legacyMasks_of_leaf01Only (hone : 1 ≤ lp.effectiveMaxLeaf limited)
    (h : lp.effectiveMaxLeaf limited < 4) :
    lp.legacyMasks limited =
      masksOfCounts lp.cfg.leaf01.initialApicId
        (maxLpIdsPerPackage lp.cfg.leaf01.htt lp.cfg.leaf01.maxLpIds)
        (maxCoreIdsPerPackage none) := by
  rw [Lp.legacyMasks, lpCpuid_ok (L := .l01) 0 hone, lpCpuid_above (L := .l04) 0 h]
  rfl

/-- Where leaf 04H is reached WF_LEGACY compares the counts; below it the core count is 1. -/
theorem legacyMasks_of_wfLegacy {cs : List LpConfig} (hwf : WfLegacy cs) (hmem : lp.cfg ∈ cs)
    (hlegacy : ¬supportsX2apic lp.cfg) (hhtt : lp.cfg.leaf01.htt = true)
    (hn : lp.cfg.leaf01.maxLpIds ≠ 0) (hone : 1 ≤ lp.effectiveMaxLeaf limited) :
    ∃ m, lp.legacyMasks limited = .ok m := by
  by_cases hfour : 4 ≤ lp.effectiveMaxLeaf limited
  · have hreports : reports lp.cfg .l04 := reports_of_four_le (L := .l04) (by decide) hfour
    rw [legacyMasks_of_leaf04 hfour]
    exact masksOfCounts_of_le _
      (maxCoreIds_le_maxLpIds_of_consistent (hwf _ hmem hreports hlegacy) hhtt hn)
  · rw [legacyMasks_of_leaf01Only hone (BitVec.not_le.mp hfour)]
    exact masksOfCounts_of_le _ (one_le_maxLpIdsPerPackage _ _)

end

/-- Settles O59: the refusal is the first branch of `masksOfCounts`; counts of 1 and 1 leave the fields
below the package empty; WF_LEGACY keeps the counts out of that branch. -/
theorem legacyRefusesMalformedCounts : Obligations.LegacyRefusesMalformedCounts := by
  refine ⟨fun _ _ _ _ => masksOfCounts_eq_error_iff, fun id _ _ _ habsent hcore => ?wholeId,
    fun id _ _ h hhtt hn => masksOfCounts_of_le id (maxCoreIds_le_maxLpIds_of_consistent h hhtt hn),
    fun _ _ _ => legacyMasks_of_wfLegacy⟩
  case wholeId =>
    rw [maxLpIdsPerPackage_of_absent habsent, hcore]
    exact masksOfCounts_two_pow id 0 0

end Sys2Proof.Proofs
end

section
/-! PROOFS. Counting on the reset platform (45_analysis.md R231). -/

namespace Sys2Proof.Proofs

open Sys2Proof.Machine

/-! ### The reset platform -/

theorem boot_limitBit_of_not_limitAtBoot {c : LpConfig} (h : c.limitAtBoot = false) :
    (Lp.boot c).limitBit = false := by
  simp [Lp.limitBit, Lp.boot, h]

/-- Full reporting reaches leaf 1FH, whose sub-leaf 0 is listed. -/
theorem boot_resetLp_leafExists (i : Nat) (limited : Fin 4) :
    (Lp.boot (Config.resetLp i)).leafExists limited .l1F = true := by
  rw [leafExists_iff, effectiveMaxLeaf_of_not_limitBit (boot_limitBit_of_not_limitAtBoot rfl)]
  exact ⟨(by decide : (0x1F : Word) ≤ 0x1F), (by decide : (0x2 : Word) ≠ 0)⟩

theorem boot_resetLp_id (i : Nat) (limited : Fin 4) :
    (Lp.boot (Config.resetLp i)).id limited = BitVec.ofNat 32 i :=
  id_of_hasX2apicId (Bool.or_eq_true_iff.mpr (.inl (boot_resetLp_leafExists i limited)))

theorem reset_lps : State.reset.lps = (List.range 32).map fun i => Lp.boot (Config.resetLp i) :=
  List.map_map

theorem reset_ids (limited : Fin 4) :
    (State.reset.lps.map fun lp => lp.id limited) = (List.range 32).map (BitVec.ofNat 32) := by
  rw [reset_lps, List.map_map]
  exact List.map_congr_left fun i _ => boot_resetLp_id i limited

/-- Sub-leaf 0 has shift 1, sub-leaf 1 shift 4, and sub-leaf 2 ends the walk. -/
theorem reset_threeDomainShifts (limited : Fin 4) :
    threeDomainShifts State.reset.domainTypes
      ((Lp.boot (Config.resetLp 0)).leafWords limited .l1F) = (1, 4) := by
  revert limited
  decide

/-! ### The counts -/

/-- A package holds 16 consecutive IDs. -/
theorem maskedIds_packageMask_four :
    maskedIds (packageMask 4) ((List.range 32).map (BitVec.ofNat 32)) =
      (List.range 2).map fun k => BitVec.ofNat 32 (16 * k) := by
  decide

/-- A core holds two consecutive IDs. -/
theorem maskedIds_coreSystemMask_one :
    maskedIds (coreSystemMask 1) ((List.range 32).map (BitVec.ofNat 32)) =
      (List.range 16).map fun k => BitVec.ofNat 32 (2 * k) := by
  decide

/-- Settles O60: the IDs are 0 to 31, and the fields begin at bits 1 (core) and 4 (package). -/
theorem resetPlatformCounts : Obligations.ResetPlatformCounts := by
  refine ⟨Lp.boot (Config.resetLp 0), rfl, ?_⟩
  simp only [reset_ids, reset_threeDomainShifts, maskedIds_packageMask_four,
    maskedIds_coreSystemMask_one, List.length_map, List.length_range, and_self]

end Sys2Proof.Proofs
end

section
/-! PROOFS. What every completed step keeps (60_exceptions.md R244, R249, R250, R254). A completed line
replaces the logical processor it runs on, and `LineTurns` says by what; the frame of a step, the rule
for the MSRs and the invariant are read off it. -/

namespace Sys2Proof.Proofs

open Sys2Proof.Machine

/-! ### The step at the head of the pending list -/

theorem runLine_of_step {s t : State} {p : Pending} {rest : List Pending}
    (hqueue : s.queue = p :: rest) (h : step s = .next t) :
    runLine p.line (s.issue p rest) = .next t :=
  (step_of_queue hqueue).symm.trans h

theorem lt_length_of_getElem? {lps : List Lp} {k : Nat} {lp : Lp} (h : lps[k]? = some lp) :
    k < lps.length :=
  (List.getElem?_eq_some_iff.mp h).1

/-- Settles O33: the frame of the line, at the state in which the step is issued. -/
theorem stepActsOnOneProcessor : Obligations.StepActsOnOneProcessor := by
  intro s t p rest hqueue h
  obtain ⟨lp, lp', hlp, hlps, -, -, -, hcur, -, hrest, -⟩ :=
    runLine_frame (runLine_of_step hqueue h)
  rw [hcur]
  refine ⟨lt_length_of_getElem? hlp, fun k hon => (issue_of_bound s hon rest).1, fun k hk => ?others,
    hrest⟩
  case others => rw [hlps, List.getElem?_set_ne hk.symm, issue_lps]

/-! ### What a completed line makes of its logical processor -/

/-- Line `l`, of an agent of `layer`, may turn the logical processor it runs on from the first into the
second. -/
inductive LineTurns : Line → Layer → Lp → Lp → Prop
  /-- Pure computation and a read of the limit bit. -/
  | same (l : Line) (layer : Layer) (lp : Lp) : LineTurns l layer lp lp
  | setEax (e : Expr) (layer : Layer) (lp : Lp) (v : Word) :
    LineTurns (.setEax e) layer lp { lp with eax := Reg.of v }
  | setEcx (e : Expr) (layer : Layer) (lp : Lp) (v : Word) :
    LineTurns (.setEcx e) layer lp { lp with ecx := Reg.of v }
  /-- A query. -/
  | results (c : Code) (layer : Layer) (lp : Lp) (w : Words) :
    LineTurns (.code c) layer lp (lp.withResults w)
  /-- A write of the limit bit, by an agent that may (60 R248). -/
  | limitBit {c : Code} {layer : Layer} {v : Bool} (lp : Lp)
    (hdecode : decode c = .ok (.wrmsr .limitBit v)) (hlayer : layer.mayAccessMsr = true) :
    LineTurns (.code c) layer lp (lp.setLimitBit v)

/-- A completed line replaces the current logical processor by one that `LineTurns` allows. -/
theorem runLine_next_lineTurns {s t : State} {l : Line} (h : runLine l s = .next t) :
    ∃ lp lp', s.lps[s.cur]? = some lp ∧ t.lps = s.lps.set s.cur lp' ∧
      LineTurns l s.layer lp lp' := by
  obtain ⟨e, lp, rfl, hlp, rfl⟩ | ⟨e, lp, rfl, hlp, rfl⟩ | ⟨e, lp, rfl, hlp, rfl⟩ |
    ⟨c, i, rfl, hdecode, hexec⟩ := runLine_next h
  · exact ⟨lp, _, hlp, rfl, .setEax e _ lp _⟩
  · exact ⟨lp, _, hlp, rfl, .setEcx e _ lp _⟩
  · exact ⟨lp, lp, hlp, (set_same hlp).symm, .same _ _ lp⟩
  obtain ⟨lp, hlp, ⟨L, n, -, rfl, -⟩ | ⟨v, rfl, hlayer, rfl⟩ | ⟨-, -, rfl⟩⟩ := exec_next hexec
  · exact ⟨lp, _, hlp, rfl, .results c _ lp _⟩
  · exact ⟨lp, _, hlp, rfl, .limitBit lp hdecode hlayer⟩
  · exact ⟨lp, lp, hlp, (set_same hlp).symm, .same _ _ lp⟩

namespace LineTurns

variable {l : Line} {layer : Layer} {lp lp' : Lp}

/-- Only a privileged write of the limit bit turns the MSR into another. -/
theorem miscEnables_ne (h : LineTurns l layer lp lp') (hne : lp'.miscEnables ≠ lp.miscEnables) :
    ∃ c v, l = .code c ∧ decode c = .ok (.wrmsr .limitBit v) ∧ layer.mayAccessMsr = true ∧
      lp' = lp.setLimitBit v := by
  cases h with
  | limitBit lp hdecode hlayer => exact ⟨_, _, rfl, hdecode, hlayer, rfl⟩
  | same | setEax | setEcx | results => exact absurd rfl hne

/-- EBX and EDX are written by a query alone, which writes all four registers. -/
theorem registersInv (h : LineTurns l layer lp lp') (hinv : lp.registersInv) :
    lp'.registersInv := by
  obtain ⟨hedx, hholds⟩ := hinv
  cases h with
  | same => exact ⟨hedx, hholds⟩
  | setEax => exact ⟨hedx, fun hebx => ⟨rfl, (hholds hebx).2⟩⟩
  | setEcx => exact ⟨hedx, fun hebx => ⟨(hholds hebx).1, rfl⟩⟩
  | results => exact ⟨rfl, fun _ => ⟨rfl, rfl⟩⟩
  | limitBit => simpa [Lp.registersInv] using And.intro hedx hholds

/-- Where the limit bit does not exist, writing it changes nothing. -/
theorem limitInv (h : LineTurns l layer lp lp') (hinv : lp.limitInv) : lp'.limitInv := by
  cases h with
  | same | setEax | setEcx | results => exact hinv
  | limitBit =>
    intro habsent
    rw [setLimitBit_cfg] at habsent
    rw [setLimitBit_of_not_hasLimitBit habsent]
    exact hinv habsent

end LineTurns

/-! ### The MSRs -/

theorem ne_application_of_mayAccessMsr {l : Layer} (h : l.mayAccessMsr = true) :
    l ≠ .application := by
  rintro rfl
  cases h

/-- Settles O34: a changed MSR is that of the logical processor the step runs on, and the line is the one
that `LineTurns.miscEnables_ne` leaves. -/
theorem onlyPrivilegedWriteChangesMsr : Obligations.OnlyPrivilegedWriteChangesMsr := by
  intro s t k lp lp' h hlp hlp' hne
  obtain ⟨p, rest, hqueue, hline⟩ := step_next h
  obtain ⟨-, -, -, -, -, -, -, hcur, hlayer, -⟩ := runLine_frame hline
  obtain ⟨-, -, hothers, -⟩ := stepActsOnOneProcessor s t p rest hqueue h
  have hk : t.cur = k := by
    by_contra hcurNe
    have hkept : t.lps[k]? = s.lps[k]? := hothers k (Ne.symm hcurNe)
    rw [hlp', hlp] at hkept
    exact hne (congrArg Lp.miscEnables (Option.some.inj hkept))
  obtain ⟨lq, lq', hlq, hlps, hturns⟩ := runLine_next_lineTurns hline
  rw [← hcur, hk] at hlq hlps
  cases Option.some.inj (hlp.symm.trans hlq)
  have hself : t.lps[k]? = some lq' := by
    rw [hlps]
    exact List.getElem?_set_self (lt_length_of_getElem? hlq)
  cases Option.some.inj (hlp'.symm.trans hself)
  obtain ⟨c, v, hcode, hdecode, hmay, rfl⟩ := hturns.miscEnables_ne hne
  refine ⟨?layer, hk, fun j => setLimitBit_getLsbD_ne lp v, p, rest, c, v, hqueue, hcode, hdecode⟩
  case layer =>
    rw [hlayer]
    exact ne_application_of_mayAccessMsr hmay

/-! ### The invariant -/

theorem forall_mem_set {P : Lp → Prop} {lps : List Lp} (h : ∀ lp ∈ lps, P lp) {k : Nat} {lp : Lp}
    (hlp : P lp) : ∀ q ∈ lps.set k lp, P q := fun q hq =>
  (List.mem_or_eq_of_mem_set hq).elim (h q) fun heq => heq ▸ hlp

/-- Settles O30: the configuration stays, the logical processor the step runs on is turned into one that
keeps both rules, and the pending list loses its head. -/
theorem stepKeepsInvariant : Obligations.StepKeepsInvariant := by
  intro s t hinv h
  obtain ⟨p, rest, hqueue, hline⟩ := step_next h
  obtain ⟨hcur, -, -, hrest⟩ := stepActsOnOneProcessor s t p rest hqueue h
  obtain ⟨hcfg, hlimited, htypes⟩ := step_sameConfiguration h
  obtain ⟨lp, lp', hlp, hlps, hturns⟩ := runLine_next_lineTurns hline
  rw [issue_lps] at hlp hlps
  have hmem : lp ∈ s.lps := List.mem_of_getElem? hlp
  have hlength : t.lps.length = s.lps.length := by rw [hlps, List.length_set]
  refine ⟨?platform, ?registers, ?limit, ?current, ?bound⟩
  case platform =>
    rw [hcfg, hlimited, htypes]
    exact hinv.platform
  case registers =>
    rw [hlps]
    exact forall_mem_set hinv.registers (hturns.registersInv (hinv.registers lp hmem))
  case limit =>
    rw [hlps]
    exact forall_mem_set hinv.limit (hturns.limitInv (hinv.limit lp hmem))
  case current => rwa [hlength]
  case bound =>
    rw [hrest, hlength]
    intro q hq
    exact hinv.bound q (hqueue ▸ List.mem_cons_of_mem p hq)

end Sys2Proof.Proofs
end

section
/-! PROOFS. What a step can answer (60_exceptions.md R240, R241, R245): on a logical processor of the
platform each operation completes or is refused for one of a few reasons, and the reasons of a step are
those of the operations it may run. -/

namespace Sys2Proof.Proofs

open Sys2Proof.Machine

/-! ### Answers -/

/-- `r` is a successor state or a refusal for one of the given reasons. -/
def Answers (reasons : List Refusal) (r : Result) : Prop :=
  (∃ t, r = .next t) ∨ ∃ x ∈ reasons, r = .refused x

theorem Answers.next (reasons : List Refusal) (t : State) : Answers reasons (.next t) :=
  .inl ⟨t, rfl⟩

theorem Answers.refused {reasons : List Refusal} {x : Refusal} (h : x ∈ reasons) :
    Answers reasons (.refused x) :=
  .inr ⟨x, h, rfl⟩

theorem Answers.mono {reasons reasons' : List Refusal} {r : Result} (h : Answers reasons r)
    (hsub : reasons ⊆ reasons') : Answers reasons' r :=
  h.imp_right fun ⟨x, hx, hr⟩ => ⟨x, hsub hx, hr⟩

/-- The five reasons of 60 R241 that an instruction can meet. -/
def execRefusals : List Refusal :=
  [.registerHoldsNoValue, .unlistedLeaf, .leafAboveMaximum, .unmodelledInstruction,
    .msrAccessWithoutPrivilege]

theorem answers_execRefusals_iff {r : Result} :
    Answers execRefusals r ↔ (∃ t, r = .next t) ∨ r = .refused .registerHoldsNoValue ∨
      r = .refused .unlistedLeaf ∨ r = .refused .leafAboveMaximum ∨
      r = .refused .unmodelledInstruction ∨ r = .refused .msrAccessWithoutPrivilege := by
  simp [Answers, execRefusals]

/-! ### The operations -/

section
variable {s : State} {lp : Lp}

theorem query_answers (hlp : s.lps[s.cur]? = some lp) (L : Leaf) (n : Word) :
    Answers [.leafAboveMaximum] (query L n s) := by
  by_cases hmax : L.selector ≤ lp.effectiveMaxLeaf s.limitedMaxLeaf
  · rw [query_of n hlp hmax]
    exact .next _ _
  · rw [query_above n hlp (BitVec.not_le.mp hmax)]
    exact .refused (List.mem_singleton_self _)

/-- The checks of CPUID in their order (60 R243): the first that fails is the reason. -/
theorem execCpuid_answers (hlp : s.lps[s.cur]? = some lp) :
    Answers [.registerHoldsNoValue, .unlistedLeaf, .leafAboveMaximum] (execCpuid s) := by
  have hquery : ∀ L n, Answers [.registerHoldsNoValue, .unlistedLeaf, .leafAboveMaximum]
      (query L n s) := fun L n => (query_answers hlp L n).mono (by simp)
  rw [execCpuid, onCur_of hlp]
  split
  · exact .refused (by simp)
  split
  · exact .refused (by simp)
  split
  · split
    · exact .refused (by simp)
    · exact hquery _ _
  · exact hquery _ _

theorem msrAccess_answers (hlp : s.lps[s.cur]? = some lp) (x : MsrTarget) {f : Lp → Result}
    (hf : ∃ t, f lp = .next t) :
    Answers [.unmodelledInstruction, .msrAccessWithoutPrivilege] (msrAccess x s f) := by
  unfold msrAccess
  split
  · exact .refused (by simp)
  split
  · rw [onCur_of hlp]
    exact .inl hf
  · exact .refused (by simp)

theorem exec_answers (hlp : s.lps[s.cur]? = some lp) (i : Instr) :
    Answers execRefusals (exec i s) := by
  have hquery : ∀ L n, Answers execRefusals (query L n s) := fun L n =>
    (query_answers hlp L n).mono (by simp [execRefusals])
  cases i with
  | cpuid => exact (execCpuid_answers hlp).mono (by simp [execRefusals])
  | cpuid00 => exact hquery .l00 0
  | cpuid01 => exact hquery .l01 0
  | cpuid04 n => exact hquery .l04 n
  | cpuid0B n => exact hquery .l0B n
  | cpuid18 n => exact hquery .l18 n
  | cpuid1F n => exact hquery .l1F n
  | wrmsr x v => exact (msrAccess_answers hlp x ⟨_, rfl⟩).mono (by simp [execRefusals])
  | rdmsr x => exact (msrAccess_answers hlp x ⟨_, rfl⟩).mono (by simp [execRefusals])
  | wbinvd | invd | clflush | clflushopt => exact .refused (by simp [execRefusals])

end

/-! ### Lines and steps -/

/-- Bytes that are no instruction, if they are not cut short, and unlisted selectors have reasons of
60 R241. -/
theorem refusalOfDecodeError_mem {e : DecodeError} (h : e ≠ .truncated) :
    refusalOfDecodeError e ∈ execRefusals := by
  cases e with
  | truncated => exact absurd rfl h
  | unknownOpcode | reservedForm | unlistedSelector => decide

/-- A selector pair is never cut short. -/
theorem exists_bytes_of_truncated {c : Code} (h : decode c = .error .truncated) :
    ∃ b, c = .bytes b ∧ decode (.bytes b) = .error .truncated := by
  cases c with
  | bytes b => exact ⟨b, rfl, h⟩
  | query eax ecx =>
    by_cases hL : ∃ L : Leaf, eax = L.selector
    · obtain ⟨L, rfl⟩ := hL
      cases (decode_query_selector L ecx).symm.trans h
    · cases (decode_query_unlisted (not_exists.mp hL) ecx).symm.trans h

theorem runLine_answers {s : State} {lp : Lp} (hlp : s.lps[s.cur]? = some lp) (l : Line) :
    Answers execRefusals (runLine l s) ∨
      (runLine l s = .refused .truncatedCode ∧
        ∃ b, l = .code (.bytes b) ∧ decode (.bytes b) = .error .truncated) := by
  cases l with
  | setEax e => exact .inl (.inl ⟨_, runLine_setEax e hlp⟩)
  | setEcx e => exact .inl (.inl ⟨_, runLine_setEcx e hlp⟩)
  | keep e => exact .inl (.inl ⟨_, runLine_keep e hlp⟩)
  | code c =>
    cases hc : decode c with
    | ok i =>
      rw [runLine_code hc]
      exact .inl (exec_answers hlp i)
    | error e =>
      rw [runLine_code_of_error hc]
      by_cases he : e = .truncated
      · subst he
        obtain ⟨b, rfl, hb⟩ := exists_bytes_of_truncated hc
        exact .inr ⟨rfl, b, rfl, hb⟩
      · exact .inl (.refused (refusalOfDecodeError_mem he))

/-- A step bound to a logical processor of the platform, or to none, runs on one. -/
theorem lpOf_lt_length {s : State} {on : Option Nat} (hne : s.lps ≠ [])
    (hbound : ∀ k, on = some k → k < s.lps.length) : s.lpOf on < s.lps.length := by
  cases on with
  | none => exact Nat.mod_lt _ (List.length_pos_iff.mpr hne)
  | some k => exact hbound k rfl

theorem step_of_queue_nil {s : State} (h : s.queue = []) : step s = .refused .endOfRun := by
  simp only [step, h]

/-- Settles O9: the step runs its line on a logical processor of the platform. -/
theorem stepCompletesOrIsRefused : Obligations.StepCompletesOrIsRefused := by
  intro s
  refine ⟨step_of_queue_nil, fun p rest hqueue hne hbound => ?_⟩
  have hlp : (s.issue p rest).lps[(s.issue p rest).cur]? = some (s.lps[s.lpOf p.on]'
      (lpOf_lt_length hne hbound)) := List.getElem?_eq_getElem _
  rw [step_of_queue hqueue]
  obtain hanswers | htruncated := runLine_answers hlp p.line
  · rcases answers_execRefusals_iff.mp hanswers with h | h | h | h | h | h <;> simp [h]
  · simp [htruncated]

end Sys2Proof.Proofs
end

section
/-! PROOFS. Layers and privilege (60_exceptions.md R247 to R249): every agent may execute CPUID, and the
limit bit is for BIOS and OS. -/

namespace Sys2Proof.Proofs

open Sys2Proof.Machine

theorem query_with_layer {s t : State} {L : Leaf} {n : Word} (h : query L n s = .next t)
    (l : Layer) : query L n { s with layer := l } = .next { t with layer := l } := by
  obtain ⟨lp, hlp, hmax, rfl⟩ := query_next h
  exact query_of (s := { s with layer := l }) n hlp hmax

/-- Settles O23: a CPUID instruction is one query, the same for every agent, and a query does not look
at the layer. -/
theorem cpuidInEveryLayer : Obligations.CpuidInEveryLayer := by
  intro s t i l hi h
  have hwrmsr : ∀ x v, i ≠ .wrmsr x v := by
    rintro x v rfl
    cases hi
  have hrdmsr : ∀ x, i ≠ .rdmsr x := by
    rintro x rfl
    cases hi
  obtain ⟨L, n, hexec⟩ := exec_eq_query h hwrmsr hrdmsr
  have hquery : query L n s = .next t := (hexec s rfl).symm.trans h
  calc exec i { s with layer := l }
      = query L n { s with layer := l } := hexec { s with layer := l } rfl
    _ = .next { t with layer := l } := query_with_layer hquery l

theorem msrAccess_limitBit_of_application {s : State} (h : s.layer = .application)
    (f : Lp → Result) : msrAccess .limitBit s f = .refused .msrAccessWithoutPrivilege := by
  simp [msrAccess, h, Layer.mayAccessMsr]

/-- Settles O26: both steps check the layer, and complete for an agent that may. -/
theorem limitBitPrivilege : Obligations.LimitBitPrivilege := by
  intro s lp v hlp
  refine ⟨fun hlayer => ?privileged, fun hlayer =>
    ⟨msrAccess_limitBit_of_application hlayer _, msrAccess_limitBit_of_application hlayer _⟩⟩
  case privileged =>
    have hmay : s.layer.mayAccessMsr = true := by
      obtain h | h := hlayer <;> rw [h] <;> rfl
    exact ⟨⟨_, execWrmsr_of v hmay hlp⟩, _, execRdmsr_of hmay hlp⟩

end Sys2Proof.Proofs
end

section
/-! PROOFS. A query program of `run_on` (60_exceptions.md R250, 30_encoding.md R87). -/

namespace Sys2Proof.Proofs

open Sys2Proof.Machine

theorem run_succ_of_step {s u : State} (h : step s = .next u) (k : Nat) :
    Host.Core.run core (k + 1) s = Host.Core.run core k u := by
  have hcore : core.step s = .next u := h
  simp only [Host.Core.run, hcore]

/-- `l`, on a platform with LIMITED_MAX_LEAF `limited`, completes on every logical processor that is as
`lp` and replaces it by `lp'`, which is all it does. -/
def LineCompletes (limited : Fin 4) (l : Line) (lp lp' : Lp) : Prop :=
  ∀ s : State, s.lps[s.cur]? = some lp → s.limitedMaxLeaf = limited →
    runLine l s = .next (s.setLp s.cur lp')

/-- The lines, one after the other on one logical processor, turn it from the first into the second. -/
inductive LinesComplete (limited : Fin 4) : List Line → Lp → Lp → Prop
  | nil (lp : Lp) : LinesComplete limited [] lp lp
  | cons {l : Line} {ls : List Line} {lp lp' lp'' : Lp} (hline : LineCompletes limited l lp lp')
    (hlines : LinesComplete limited ls lp' lp'') : LinesComplete limited (l :: ls) lp lp''

/-- The lines of a `run_on` that nothing else is issued beside run to their end on their logical
processor, and change nothing of the others. -/
theorem run_pendingLines {limited : Fin 4} {k : Nat} {layer : Layer} {lines : List Line} {lp lp' : Lp}
    (h : LinesComplete limited lines lp lp') {s : State}
    (hqueue : s.queue = pendingLines (some k) layer lines) (hlp : s.lps[k]? = some lp)
    (hlimited : s.limitedMaxLeaf = limited) :
    ∃ t, Host.Core.run core lines.length s = .next t ∧ t.queue = [] ∧ t.lps = s.lps.set k lp' := by
  induction h generalizing s with
  | nil lp => exact ⟨s, rfl, hqueue, (set_same hlp).symm⟩
  | @cons l ls lp mid lp' hline _ ih =>
    have hstep := (step_of_queue hqueue).trans (hline _ hlp hlimited)
    obtain ⟨t, hrun, hempty, hlps⟩ :=
      ih (s := (s.issue _ (pendingLines (some k) layer ls)).setLp k mid) rfl
        (setLp_getElem?_self hlp mid) hlimited
    refine ⟨t, (run_succ_of_step hstep _).trans hrun, hempty, ?_⟩
    rw [hlps]
    exact List.set_set ..

/-! ### The lines of a query -/

section
variable (limited : Fin 4) (lp : Lp)

theorem lineCompletes_setEax_const (v : Word) :
    LineCompletes limited (.setEax (.const v)) lp { lp with eax := Reg.of v } :=
  fun _ hlp _ => runLine_setEax (.const v) hlp

theorem lineCompletes_setEcx_const (v : Word) :
    LineCompletes limited (.setEcx (.const v)) lp { lp with ecx := Reg.of v } :=
  fun _ hlp _ => runLine_setEcx (.const v) hlp

variable {limited lp}

theorem lineCompletes_cpuid {L : Leaf} {n : Word} (heax : lp.eax = Reg.of L.selector)
    (hecx : lp.ecx = Reg.of n) (hmax : L.selector ≤ lp.effectiveMaxLeaf limited) :
    LineCompletes limited (.code (encode .cpuid)) lp
      (lp.withResults (lp.leafWords limited L n)) := by
  rintro s hlp rfl
  have hcpuid : execCpuid s = query L n s :=
    execCpuid_eq_query hlp (by rw [heax, reg_of_read]) fun _ => by rw [hecx, reg_of_read]
  calc runLine (.code (encode .cpuid)) s = exec .cpuid s :=
        runLine_code (decodeEncodeAgree .cpuid rfl) s
    _ = query L n s := hcpuid
    _ = _ := query_of n hlp hmax

end

/-- What a leaf returns is not read from the registers. -/
theorem leafWords_with_selectors (lp : Lp) (a c : Reg) (limited : Fin 4) (L : Leaf) (n : Word) :
    ({ lp with eax := a, ecx := c } : Lp).leafWords limited L n = lp.leafWords limited L n := by
  cases L <;> rfl

/-- Settles O37: the two register lines leave the selector pair where CPUID reads it, and the four results
overwrite it. -/
theorem runOnQuery : Obligations.RunOnQuery := by
  intro s k lp l L n hqueue hlp hmax
  have hlines : LinesComplete s.limitedMaxLeaf
      [.setEax (.const L.selector), .setEcx (.const n), .code (encode .cpuid)] lp _ :=
    .cons (lineCompletes_setEax_const _ lp L.selector) <|
      .cons (lineCompletes_setEcx_const _ _ n) <|
        .cons (lineCompletes_cpuid rfl rfl hmax) (.nil _)
  rw [leafWords_with_selectors] at hlines
  have hpending := runOn_queue s k l
    [.setEax (.const L.selector), .setEcx (.const n), .code (encode .cpuid)]
  rw [hqueue, List.nil_append] at hpending
  exact run_pendingLines hlines hpending hlp rfl

end Sys2Proof.Proofs
end

section
/-! PROOFS. The invariant at the start of a run (70_reset_and_hazards.md R272), and the rules of a
well-formed configuration (60_exceptions.md R244) on the reset platform (95_test_vectors.md, platform
P1), whose free words no rule reads. -/

namespace Sys2Proof.Proofs

open Sys2Proof.Machine

/-! ### The start of a run -/

theorem boot_registersInv (c : LpConfig) : (Lp.boot c).registersInv :=
  ⟨rfl, nofun⟩

theorem boot_limitInv (c : LpConfig) : (Lp.boot c).limitInv := by
  intro (habsent : c.hasLimitBit = false)
  simp [Lp.boot, habsent]

theorem boot_map_cfg (p : Platform) : (State.boot p).lps.map Lp.cfg = p.lps := by
  simp [Function.comp_def]

theorem inv_boot {p : Platform} (h : PlatformWf p.lps p.limitedMaxLeaf p.domainTypes) :
    Inv (State.boot p) where
  platform := by rwa [boot_map_cfg]
  registers lp hlp := by
    obtain ⟨c, -, rfl⟩ := List.mem_map.mp hlp
    exact boot_registersInv c
  limit lp hlp := by
    obtain ⟨c, -, rfl⟩ := List.mem_map.mp hlp
    exact boot_limitInv c
  current := by
    rw [boot_lps, List.length_map]
    exact List.length_pos_iff.mpr h.nonempty
  bound := nofun

/-! ### The sub-leaves of a table -/

theorem at_of_length_le {t : SubleafTable} {n : Word} (h : t.listed.length ≤ n.toNat) :
    t.at n = t.tail := by
  rw [SubleafTable.at, List.getElem?_eq_none h, Option.getD_none]

theorem at_mem_take {t : SubleafTable} {n : Word} {k : Nat} (hn : n.toNat < k)
    (hk : k ≤ t.listed.length) : t.at n ∈ t.listed.take k := by
  have hlisted : n.toNat < t.listed.length := hn.trans_le hk
  rw [SubleafTable.at, List.getElem?_eq_getElem hlisted, Option.getD_some]
  exact List.mem_take_iff_getElem.mpr ⟨n.toNat, lt_min hn hlisted, rfl⟩

/-! ### The extended leaves of the reset platform -/

/-- The customary values number the domains in the order of the hierarchy. -/
theorem customary_value_toNat (d : Domain) :
    (Config.customaryDomainTypes.value d).toNat = d.rank + 1 := by
  cases d <;> rfl

/-- An extended leaf whose two valid sub-leaves are the logical-processor and the core domain. -/
theorem extendedWf_of_two_domains {q : Word → Words} (hlp : (q 0).domainType = 1)
    (hcore : (q 1).domainType = 2) (hlpCount : 1 ≤ (q 0).numLp) (hcoreCount : 1 ≤ (q 1).numLp)
    (hshift : (q 0).shift ≤ (q 1).shift)
    (htail : ∀ n : Word, 2 ≤ n.toNat → (q n).eax = 0 ∧ (q n).ebx = 0 ∧ (q n).domainType = 0) :
    ExtendedWf Config.customaryDomainTypes q 2 := by
  have hvalid : ∀ n : Word, n.toNat < 2 → n = 0 ∨ n = 1 := fun n hn => by bv_omega
  refine ⟨⟨hlp, hcore⟩, by decide, fun n => ?validity, fun n hn => ?invalid, fun n hn => ?counted,
    fun n m hnm hm => ?monotone, fun n m hn hm htype => ?distinct,
    fun n m d e hnm hm hd he => ?ordered⟩
  case validity =>
    by_cases hn : n.toNat < 2
    · obtain rfl | rfl := hvalid n hn
      · exact iff_of_true (by rw [hlp]; decide) hn
      · exact iff_of_true (by rw [hcore]; decide) hn
    · obtain ⟨-, -, htype⟩ := htail n (not_lt.mp hn)
      exact iff_of_false (not_not.mpr htype) hn
  case invalid =>
    obtain ⟨heax, hebx, -⟩ := htail n hn
    exact ⟨heax, hebx⟩
  case counted =>
    obtain rfl | rfl := hvalid n hn
    · exact hlpCount
    · exact hcoreCount
  case monotone =>
    obtain rfl | rfl := hvalid n (hnm.trans_lt hm)
    · obtain rfl | rfl := hvalid m hm
      · exact BitVec.le_refl _
      · exact hshift
    · obtain rfl : m = 1 := by bv_omega
      exact BitVec.le_refl _
  case distinct =>
    obtain rfl | rfl := hvalid n hn <;> obtain rfl | rfl := hvalid m hm
    · rfl
    · exact absurd (hlp.symm.trans (htype.trans hcore)) (by decide)
    · exact absurd (hcore.symm.trans (htype.trans hlp)) (by decide)
    · rfl
  case ordered =>
    obtain ⟨rfl, rfl⟩ : n = 0 ∧ m = 1 := by bv_omega
    have hdRank := customary_value_toNat d
    have heRank := customary_value_toNat e
    rw [← hd, hlp] at hdRank
    rw [← he, hcore] at heRank
    calc d.rank = 0 := (Nat.succ_injective hdRank).symm
      _ < 1 := one_pos
      _ = e.rank := Nat.succ_injective heRank

section
variable (i : Nat)

theorem resetExtended_wf (x : Word) :
    ExtendedWf Config.customaryDomainTypes (extendedWords (Config.resetExtended i) x) 2 := by
  have himpl : (Config.resetExtended i).implemented = true := rfl
  have hfirst : (Config.resetExtended i).at 0 = ⟨0x1, 0x2, 0x100, BitVec.ofNat 32 i⟩ := rfl
  have hsecond : (Config.resetExtended i).at 1 = ⟨0x4, 0x10, 0x201, BitVec.ofNat 32 i⟩ := rfl
  refine extendedWf_of_two_domains ?type0 ?type1 ?count0 ?count1 ?shift fun n hn => ?tail
  case type0 =>
    rw [extendedWords_domainType himpl, hfirst]
    exact (by decide : (0x100 : Word).extractLsb' 8 8 = 1)
  case type1 =>
    rw [extendedWords_domainType himpl, hsecond]
    exact (by decide : (0x201 : Word).extractLsb' 8 8 = 2)
  case count0 =>
    rw [extendedWords_of_implemented himpl, hfirst]
    exact (by decide : 1 ≤ (0x2 : Word).extractLsb' 0 16)
  case count1 =>
    rw [extendedWords_of_implemented himpl, hsecond]
    exact (by decide : 1 ≤ (0x10 : Word).extractLsb' 0 16)
  case shift =>
    rw [extendedWords_of_implemented himpl, extendedWords_of_implemented himpl, hfirst, hsecond]
    exact (by decide : (0x1 : Word).extractLsb' 0 5 ≤ (0x4 : Word).extractLsb' 0 5)
  case tail =>
    have hat : (Config.resetExtended i).at n = ⟨0, 0, 0, BitVec.ofNat 32 i⟩ := at_of_length_le hn
    rw [extendedWords_domainType himpl, extendedWords_of_implemented himpl, hat]
    exact ⟨rfl, rfl, (by decide : (0 : Word).extractLsb' 8 8 = 0)⟩

/-! ### The caches and translation structures of the reset platform -/

/-- The four caches stand before the Null entry, and zeros follow it. -/
theorem resetCaches_wf : CachesWf (Config.resetCaches i).at 4 := by
  have hmem : ∀ n : Word, n.toNat < 4 →
      (Config.resetCaches i).at n ∈ (Config.resetCaches 0).listed.take 4 := fun n hn =>
    at_mem_take hn (by decide : 4 ≤ 5)
  refine ⟨by decide, fun n hn => ?valid, rfl, fun n hn => at_of_length_le hn,
    fun n m hn hm => ?constant, fun n hn => ?level⟩
  case valid =>
    have hvalid : ∀ w ∈ (Config.resetCaches 0).listed.take 4, w.cacheType ≠ 0 := by decide
    exact hvalid _ (hmem n hn)
  case constant =>
    have hconstant : ∀ w ∈ (Config.resetCaches 0).listed.take 4, w.maxCoreIds = 7 := by decide
    rw [hconstant _ (hmem n hn), hconstant _ (hmem m hm)]
  case level =>
    have hlevel : ∀ w ∈ (Config.resetCaches 0).listed.take 4,
        1 ≤ w.cacheLevel ∧ w.cacheReservedEdx = 0 := by decide
    exact hlevel _ (hmem n hn)

/-- Sub-leaf 0 is of Null type, 1 and 3 are valid, 2 is a hole, and zeros follow. -/
theorem resetTlbs_wf : TlbsWf (Config.resetTlbs i).at := by
  have hcases : ∀ n : Word, n = 0 ∨ n = 1 ∨ n = 2 ∨ n = 3 ∨ 4 ≤ n.toNat := fun n => by bv_omega
  have hzero : ∀ n : Word, n = 2 ∨ 4 ≤ n.toNat → (Config.resetTlbs i).at n = Words.zero := by
    rintro n (rfl | hn)
    · rfl
    · exact at_of_length_le hn
  have hmax : ((Config.resetTlbs i).at 0).maxSubleaf = 3 := rfl
  have hsecond : (Config.resetTlbs i).at 1 =
      ⟨Config.anyWord i 0x18 1 0, 0x00040003, 0x10, 0x4021⟩ := rfl
  have hfourth : (Config.resetTlbs i).at 3 =
      ⟨Config.anyWord i 0x18 3 0, 0x0008000B, 0x80, 0x4043⟩ := rfl
  refine ⟨fun n hn hinvalid => ?invalid, fun _ => ⟨rfl, rfl, rfl⟩, fun n hn => ?level⟩
  case invalid =>
    rw [hmax] at hinvalid
    obtain rfl | rfl | rfl | rfl | htail := hcases n
    · exact absurd rfl hn
    · rw [hsecond] at hinvalid
      exact absurd hinvalid (by decide : ¬((3 : Word) < 1 ∨ (0x4021 : Word).extractLsb' 0 5 = 0))
    · exact hzero 2 (.inl rfl)
    · rw [hfourth] at hinvalid
      exact absurd hinvalid (by decide : ¬((3 : Word) < 3 ∨ (0x4043 : Word).extractLsb' 0 5 = 0))
    · exact hzero n (.inr htail)
  case level =>
    obtain rfl | rfl | rfl | rfl | htail := hcases n
    · exact absurd rfl hn
    · rw [hsecond]
      exact (by decide : 1 ≤ (0x4021 : Word).extractLsb' 5 3)
    · exact absurd rfl hn
    · rw [hfourth]
      exact (by decide : 1 ≤ (0x4043 : Word).extractLsb' 5 3)
    · rw [hzero n (.inr htail)] at hn
      exact absurd rfl hn

/-! ### The reset platform -/

theorem resetLp_wf (limited : Fin 4) :
    LpConfigWf Config.customaryDomainTypes limited (Config.resetLp i) where
  leaf1F _ _ := ⟨2, resetExtended_wf i _⟩
  leaf0B _ _ := resetExtended_wf i _
  leaf04 _ := ⟨4, resetCaches_wf i⟩
  leaf18 _ := resetTlbs_wf i
  leaf01 _ := BitVec.extractLsb'_append_eq_left
  limit _ := by
    have hlimit : ∀ l : Fin 4, BitVec.ofNat 32 l.val ≤ (0x1F : Word) := by decide
    exact hlimit limited

theorem uniqueId_resetLp : uniqueId (Config.resetLp i) = BitVec.ofNat 32 i :=
  if_pos (.inl ⟨(by decide : (0x1F : Word) ≤ 0x1F), rfl⟩)

end

theorem resetPlatform_wf : PlatformWf Config.platform.lps Config.platform.limitedMaxLeaf
    Config.platform.domainTypes where
  nonempty := by decide
  types := by decide
  each c hc := by
    obtain ⟨i, -, rfl⟩ := List.mem_map.mp hc
    exact resetLp_wf i _
  ids := by
    have hids : ((List.range 32).map (BitVec.ofNat 32)).Nodup := by decide
    rw [IdsWf, Config.platform, List.pairwise_map]
    simp only [uniqueId_resetLp]
    exact List.pairwise_map.mp hids

/-- Settles O31: no register holds a value at the start of a run and the limit bit is the boot parameter
where it exists, and the reset platform is one of the well-formed ones. -/
theorem invariantAtReset : Obligations.InvariantAtReset :=
  ⟨inv_boot resetPlatform_wf, fun _ => inv_boot⟩

end Sys2Proof.Proofs
end

section
/-! PROOFS. The start of a run and the steps no `run_on` binds (70_reset_and_hazards.md R272, R278). -/

namespace Sys2Proof.Proofs

open Sys2Proof.Machine

/-! ### A logical processor at the start of a run -/

theorem boot_registers_read (c : LpConfig) :
    (Lp.boot c).eax.read = none ∧ (Lp.boot c).ebx.read = none ∧ (Lp.boot c).ecx.read = none ∧
      (Lp.boot c).edx.read = none :=
  ⟨reg_empty_read, reg_empty_read, reg_empty_read, reg_empty_read⟩

/-- The word of IA32_MISC_ENABLES at the start of a run has bit 22 set exactly where the boot parameter
asks for it and the processor has the bit. -/
theorem boot_limitBit (c : LpConfig) :
    (Lp.boot c).limitBit = (c.hasLimitBit && c.limitAtBoot) := by
  cases hexists : c.hasLimitBit with
  | false => exact limitBit_of_not_hasLimitBit hexists
  | true =>
    rw [limitBit_of_hasLimitBit hexists, Lp.boot, hexists]
    cases c.limitAtBoot with
    | false => exact (by decide : (0 : BitVec 64).getLsbD 22 = false)
    | true => exact (by decide : (0x400000 : BitVec 64).getLsbD 22 = true)

theorem boot_limitBit_of_hasLimitBit {c : LpConfig} (h : c.hasLimitBit = true) :
    (Lp.boot c).limitBit = c.limitAtBoot := by
  rw [boot_limitBit, h, Bool.true_and]

/-- Settles O29: each logical processor of the platform is the boot state of its configuration. -/
theorem startOfRun : Obligations.StartOfRun := by
  intro p
  refine ⟨boot_map_cfg p, fun lp hlp => ?_, boot_limitedMaxLeaf p, boot_domainTypes p, boot_queue p⟩
  obtain ⟨c, -, rfl⟩ := List.mem_map.mp hlp
  obtain ⟨heax, hebx, hecx, hedx⟩ := boot_registers_read c
  exact ⟨heax, hebx, hecx, hedx, boot_limitBit_of_hasLimitBit⟩

/-! ### A step no `run_on` binds -/

/-- An unbound step runs on the host's choice, and uses that choice up. -/
theorem issue_of_unbound (s : State) {p : Pending} (h : p.on = none) (rest : List Pending) :
    (s.issue p rest).cur = Config.freeLp s.freeCount % s.lps.length ∧
      (s.issue p rest).freeCount = s.freeCount + 1 := by
  simp [State.issue, State.lpOf, h]

/-- Settles O38: the choice is reduced to the number of logical processors. -/
theorem unboundStepRunsSomewhere : Obligations.UnboundStepRunsSomewhere := by
  intro s p rest hne hunbound
  have hlt : s.lpOf p.on < s.lps.length :=
    lpOf_lt_length hne fun k hk => nomatch hunbound.symm.trans hk
  exact ⟨hlt, issue_of_unbound s hunbound rest⟩

end Sys2Proof.Proofs
end
